-- ==== Sys2Proof/Word.lean ====
section
/-! DEFINITION. The word types of the BSR/CMC unit (spec/00_scope.md R5, R7; spec/30_encoding.md R50, R52, R58). -/

namespace Sys2Proof

/-- One byte of the byte source, and the width of the reader's buffer (R5 BUFW). -/
abbrev Byte := BitVec 8

/-- A 32-bit part of a command word, a channel mask, a raw pixel word, a result (R5 RESW, MASKW; R52). -/
abbrev Word := BitVec 32

/-- A command word `CW[95:0]` (R50). -/
abbrev CmdWord := BitVec 96

/-- A response `RSP[35:0]` as it stands on the port `rsp` (R58, R64). -/
abbrev RspWord := BitVec 36

/-- The quotient `t` of NORMALIZE, which fits in 40 bits (R93, R94). -/
abbrev Quotient := BitVec 40

end Sys2Proof
end

