-- ==== Sys2Proof/Config.lean ====
section
/-! DEFINITION. What is fixed for a component (spec/00_scope.md R5, R6) and the one value the spec leaves
open, NORM_OVF (spec/41_channel_mask_codec.md R97, spec/93_implementation_defined.md U1). -/

namespace Sys2Proof.Config

/-- NMIN of R5. -/
abbrev minCount : Int := 1

/-- NMAX of R5. -/
abbrev maxCount : Int := 32

/-- The scale constant of `normalize` (R5), and its result for an absent mask. -/
abbrev scale : Nat := 255

/-- The largest legal `bits` operand (R6, R57 case 5). -/
abbrev maxBits : Nat := 32

/-- `len < 2^32` (R6 SRC_LEN, R18). -/
abbrev sourceLimit : Nat := 2 ^ 32

/-- Which instance of the parameter NORM_OVF a component has (R6, R97): the spec's own value `t mod 256`, or a
total function of the quotient of which nothing is known (U1). Log entry 1. -/
inductive NormOvf where
  | truncate
  | unconstrained
  deriving DecidableEq, Repr

/-- NORM_OVF where the component does not truncate: a function from the quotient to 8 bits that depends on
nothing else (R97, U1). It has no body, so nothing can be proved of its values. Log entry 1. -/
opaque freeNormOvf : Quotient → Byte

end Sys2Proof.Config
end

