-- ==== Sys2Proof/Syntax.lean ====
section
/-! DEFINITION. The six commands (spec/30_encoding.md R55), one constructor per row of spec/opcode_table.json,
with the operands of R54 as the command word carries them. -/

namespace Sys2Proof

/-- A command with its operands. No operand is scaled or assembled from pieces (R54). -/
inductive Instr where
  /-- `readBit()` (R71). -/
  | readbit
  /-- `readBits(count)` (R72): `count` is the field `A`, read as two's complement by the meaning. -/
  | readbits (count : Word)
  /-- `resetBitBuffer()` (R73). -/
  | resetbitbuf
  /-- `shiftOf(mask)` (R91). -/
  | shiftof (mask : Word)
  /-- `bitWidthOf(mask)` (R92). -/
  | bitwidthof (mask : Word)
  /-- `normalize(rawValue, mask, shift, bits)` (R93): the fields `B`, `A`, `S`, `W`. -/
  | normalize (raw : Word) (mask : Word) (shift : BitVec 5) (bits : BitVec 6)
  deriving DecidableEq, Repr

end Sys2Proof
end

