-- ==== Sys2Proof/WellFormed.lean ====
section
/-! DEFINITION. Which commands have a command word: all operands in range (spec/30_encoding.md R54, R57). -/

namespace Sys2Proof

/-- Operands in range: only the `bits` operand of NORMALIZE has a field wider than its range (R57 case 5). -/
def Instr.wf : Instr → Bool
  | .readbit => true
  | .readbits _ => true
  | .resetbitbuf => true
  | .shiftof _ => true
  | .bitwidthof _ => true
  | .normalize _ _ _ bits => decide (bits.toNat ≤ Config.maxBits)

end Sys2Proof
end

