-- ==== Sys2Proof/Decode.lean ====
section
/-! DEFINITION. The command word (spec/30_encoding.md R52, R53), its decoder (R55, R56, R57, R60, R63), its
encoder, and the opcode map of R55 as data. -/

namespace Sys2Proof

/-- Why a command word is illegal: the five cases of R57, in their order. -/
inductive IllegalWord where
  /-- Case 1: `OP` is 0 or 7 to 15. -/
  | reservedOpcode
  /-- Case 2: a bit of `RSV3`, `RSV2` or `RSV1` is 1 (R56). -/
  | reservedBits
  /-- Case 3: format N with `S`, `W`, `A` or `B` not 0. -/
  | unusedFieldN
  /-- Case 4: format A with `S`, `W` or `B` not 0. -/
  | unusedFieldA
  /-- Case 5: NORMALIZE with `W` 33 to 63. -/
  | bitsTooLarge
  deriving DecidableEq, Repr

/-- The answer of the decoder: one command, or illegal with the reason (R63: decoding is total). -/
inductive Decoded where
  | legal (i : Instr)
  | illegal (why : IllegalWord)
  deriving DecidableEq, Repr

namespace CmdWord

/-- `RSV3 = CW[95:92]` (R52). -/
def rsv3 (cw : CmdWord) : BitVec 4 := cw.extractLsb' 92 4

/-- `OP = CW[91:88]` (R52). -/
def op (cw : CmdWord) : BitVec 4 := cw.extractLsb' 88 4

/-- `RSV2 = CW[87:77]` (R52). -/
def rsv2 (cw : CmdWord) : BitVec 11 := cw.extractLsb' 77 11

/-- `S = CW[76:72]` (R52). -/
def s (cw : CmdWord) : BitVec 5 := cw.extractLsb' 72 5

/-- `RSV1 = CW[71:70]` (R52). -/
def rsv1 (cw : CmdWord) : BitVec 2 := cw.extractLsb' 70 2

/-- `W = CW[69:64]` (R52). -/
def w (cw : CmdWord) : BitVec 6 := cw.extractLsb' 64 6

/-- `A = CW[63:32]` (R52). -/
def a (cw : CmdWord) : Word := cw.extractLsb' 32 32

/-- `B = CW[31:0]` (R52). -/
def b (cw : CmdWord) : Word := cw.extractLsb' 0 32

/-- A command word from its fields, reserved bits 0 (R52, R56). -/
def ofFields (op : BitVec 4) (s : BitVec 5) (w : BitVec 6) (a b : Word) : CmdWord :=
  0#4 ++ op ++ 0#11 ++ s ++ 0#2 ++ w ++ a ++ b

end CmdWord

/-- Format N: every field but `OP` must be 0 (R53, R57 case 3). -/
def decodeN (i : Instr) (cw : CmdWord) : Decoded :=
  if CmdWord.s cw = 0 ∧ CmdWord.w cw = 0 ∧ CmdWord.a cw = 0 ∧ CmdWord.b cw = 0 then .legal i
  else .illegal .unusedFieldN

/-- Format A: every field but `OP` and `A` must be 0 (R53, R57 case 4). `i` is the command with `A` in it. -/
def decodeA (i : Instr) (cw : CmdWord) : Decoded :=
  if CmdWord.s cw = 0 ∧ CmdWord.w cw = 0 ∧ CmdWord.b cw = 0 then .legal i
  else .illegal .unusedFieldA

/-- Format X: all fields are used and `W` must be at most 32 (R53, R57 case 5). -/
def decodeX (cw : CmdWord) : Decoded :=
  if (CmdWord.w cw).toNat ≤ Config.maxBits then
    .legal (.normalize (CmdWord.b cw) (CmdWord.a cw) (CmdWord.s cw) (CmdWord.w cw))
  else .illegal .bitsTooLarge

/-- The decoder: total on 96-bit words, the same in every state (R55, R57, R60, R63). -/
def decode (cw : CmdWord) : Decoded :=
  if CmdWord.rsv3 cw ≠ 0 ∨ CmdWord.rsv2 cw ≠ 0 ∨ CmdWord.rsv1 cw ≠ 0 then .illegal .reservedBits
  else if CmdWord.op cw = 1 then decodeN .readbit cw
  else if CmdWord.op cw = 2 then decodeA (.readbits (CmdWord.a cw)) cw
  else if CmdWord.op cw = 3 then decodeN .resetbitbuf cw
  else if CmdWord.op cw = 4 then decodeA (.shiftof (CmdWord.a cw)) cw
  else if CmdWord.op cw = 5 then decodeA (.bitwidthof (CmdWord.a cw)) cw
  else if CmdWord.op cw = 6 then decodeX cw
  else .illegal .reservedOpcode

/-- The `OP` field of a command (R55). -/
def opcodeOf : Instr → BitVec 4
  | .readbit => 1
  | .readbits _ => 2
  | .resetbitbuf => 3
  | .shiftof _ => 4
  | .bitwidthof _ => 5
  | .normalize _ _ _ _ => 6

/-- The encoder (R52, R53, R55): the one command word of a command with its operands. -/
def encode : Instr → CmdWord
  | .readbit => CmdWord.ofFields (opcodeOf .readbit) 0 0 0 0
  | .readbits count => CmdWord.ofFields (opcodeOf (.readbits count)) 0 0 count 0
  | .resetbitbuf => CmdWord.ofFields (opcodeOf .resetbitbuf) 0 0 0 0
  | .shiftof mask => CmdWord.ofFields (opcodeOf (.shiftof mask)) 0 0 mask 0
  | .bitwidthof mask => CmdWord.ofFields (opcodeOf (.bitwidthof mask)) 0 0 mask 0
  | .normalize raw mask shift bits =>
    CmdWord.ofFields (opcodeOf (.normalize raw mask shift bits)) shift bits mask raw

/-- A row of the opcode map of R55. -/
structure OpcodeRow where
  op : BitVec 4
  matchBits : CmdWord
  maskBits : CmdWord
  deriving DecidableEq, Repr

/-- The opcode map of R55, its `match` and `mask` columns digit for digit. -/
def opcodeTable : List OpcodeRow :=
  [ ⟨1, 0x010000000000000000000000, 0xFFFFFFFFFFFFFFFFFFFFFFFF⟩,
    ⟨2, 0x020000000000000000000000, 0xFFFFFFFF00000000FFFFFFFF⟩,
    ⟨3, 0x030000000000000000000000, 0xFFFFFFFFFFFFFFFFFFFFFFFF⟩,
    ⟨4, 0x040000000000000000000000, 0xFFFFFFFF00000000FFFFFFFF⟩,
    ⟨5, 0x050000000000000000000000, 0xFFFFFFFF00000000FFFFFFFF⟩,
    ⟨6, 0x060000000000000000000000, 0xFFFFE0C00000000000000000⟩ ]

/-- A word selects a row when `CW & mask == match`, and for NORMALIZE when also `W <= 32` (R55). -/
def OpcodeRow.selects (r : OpcodeRow) (cw : CmdWord) : Bool :=
  decide (cw &&& r.maskBits = r.matchBits) &&
    (decide (r.op ≠ 6) || decide ((CmdWord.w cw).toNat ≤ Config.maxBits))

/-- The command word whose parts are `CTL`, `A`, `B`, most significant part first (R52). -/
def cmdOfParts (ctl a b : Word) : CmdWord := ctl ++ a ++ b

/-- The instruction the decoder reads from an instruction of `nbits` bits whose bits are `w`, bit 0 the least
significant: for this block `w` is `CW` itself. R50 has commands of exactly 96 bits and says nothing of another
width. DESIGN CHOICE, log entry 15: of fewer than 96 bits the missing high ones are 0, and more than 96 bits are no
command. The machine never meets either: the command port takes 96 bits. -/
def decodeTableWord (nbits w : Nat) : Option Instr :=
  if nbits ≤ 96 then
    match decode (BitVec.ofNat 96 (w % 2 ^ nbits)) with
    | .legal i => some i
    | .illegal _ => none
  else none

end Sys2Proof
end

