-- ==== Sys2Proof/Machine/State.lean ====
section
/-! DEFINITION. The state (spec/10_state.md R10 to R13, R18), the responses (spec/30_encoding.md R58), the
inputs of the host (spec/42_boundary_usage.md R113, spec/70_reset_and_hazards.md R140, R143), why a step can
stop, and the state after reset (R21). -/

namespace Sys2Proof.Machine

/-- The content of the byte source, R18 `mem`: pairs of offset and byte in the canonical form of `Memory.wf`.
An unlisted offset holds 0x00 (log entry 2). -/
abbrev Memory := List Host.Cell

/-- The two fault causes of R120. -/
inductive Cause where
  /-- Code 1 (R121): raised by READBIT and READBITS when a bit is wanted and the source is exhausted. -/
  | unexpectedEndOfData
  /-- Code 2 (R122): raised by every illegal command word. -/
  | illegalCommand
  deriving DecidableEq, Repr

/-- A response `RSP = {ERR, CAUSE, DATA}` (R58). -/
structure Response where
  err : Bool
  cause : BitVec 3
  data : Word
  deriving DecidableEq, Repr

/-- What the host does, one at a time (R51, R113, R140, R143). -/
inductive HostEvent where
  /-- Present a command word; the source answers every byte request (R50, R51). -/
  | command (cw : CmdWord)
  /-- Present a command word to a block whose source answers `answered` byte requests and no more (U14). -/
  | commandStalled (cw : CmdWord) (answered : Nat)
  /-- Read, skip or seek on the source so that its cursor becomes `pos` (R113). -/
  | movePos (pos : Nat)
  /-- Assert `rst` between two commands (R140). -/
  | rst
  /-- Present a command word and assert `rst` before its response, the source having answered at most
  `answered` byte requests of it (R140 'A command in progress when reset is asserted gives no response'). -/
  | rstDuring (cw : CmdWord) (answered : Nat)
  /-- The host's three steps of R143: attach a source with this content, reset the block, place the cursor. -/
  | startSession (bytes : List Byte) (pos : Nat)
  deriving DecidableEq, Repr

/-- Why the machine stops with a fault. A fault of the BLOCK is not one of these: it is a next state (R124). -/
inductive Fault where
  /-- Raised by `HostEvent.commandStalled`: the command needs a byte the source never gives and never completes
  (spec/93_implementation_defined.md U14 'stuck'). Safe: the model has no next state where the block has none. -/
  | sourceNeverAnswers
  deriving DecidableEq, Repr

/-- Why the model gives no meaning to a step. -/
inductive Refusal where
  /-- An instruction without a meaning yet: no arm of `exec` is refused so. Safe: nothing follows from a refusal. -/
  | notModelled (mnemonic : String)
  /-- Raised by `HostEvent.movePos` and `HostEvent.startSession`: the cursor would leave `0 .. len`, which R18 and
  R113 do not allow the host. Safe: the spec gives such a move no meaning. -/
  | posOutsideSource
  /-- Raised by `HostEvent.startSession`: a source of 2^32 bytes or more (R18, U13). Safe: the spec gives no
  meaning to it. -/
  | sourceTooLong
  deriving DecidableEq, Repr

/-- The state. The first four fields are the block's (R10 to R13), the next three the byte source's (R18),
`normOvf` is the parameter of R97, `rsp` is the response port (R58, R64), `inputs` is what the host will do. -/
structure State where
  /-- R10, 8 bits: the byte most recently pulled. -/
  buf : Byte
  /-- R11, 4 bits, 0 to 8: how many bits of `buf` are not yet returned. A count, so a natural number. -/
  cnt : Nat
  /-- R12, 1 bit: FAULT. -/
  fault : Bool
  /-- R13, 3 bits: FCAUSE. -/
  fcause : BitVec 3
  /-- R18: the length of the source in bytes. -/
  len : Nat
  /-- R18: the content of the source. -/
  mem : Memory
  /-- R18: the source cursor, the offset of the next byte a sequential read returns. -/
  pos : Nat
  /-- R97: which NORM_OVF this component has. Fixed for a machine: no step changes it. -/
  normOvf : Config.NormOvf
  /-- R58, R64: the last response given; none since reset (log entry 3). -/
  rsp : Option Response
  /-- R51, D23: the moves of the host that are still to come, the next one first (log entry 4). -/
  inputs : List HostEvent
  deriving DecidableEq, Repr

/-- The state right after reset (R21, R140), with no source attached, the spec's own NORM_OVF and a host that
presents nothing (log entry 5). -/
def State.reset : State where
  buf := 0
  cnt := 0
  fault := false
  fcause := 0
  len := 0
  mem := []
  pos := 0
  normOvf := .truncate
  rsp := none
  inputs := []

end Sys2Proof.Machine
end

