-- ==== Sys2Proof/Machine/Flags.lean ====
section
/-! DEFINITION. The fault flag and cause, the only flags (spec/10_state.md R12, R13, R16, R17;
spec/60_exceptions.md R120, R124, R129), and their outputs (spec/30_encoding.md R64). -/

namespace Sys2Proof.Machine

/-- The cause codes of R120. -/
def Cause.code : Cause → BitVec 3
  | .unexpectedEndOfData => 1
  | .illegalCommand => 2

/-- R124, R129: the first fault of a session sets FAULT and writes FCAUSE; a later one changes neither. -/
def State.recordFault (s : State) (c : Cause) : State :=
  { s with fault := true, fcause := if s.fault then s.fcause else c.code }

/-- The output `fault_o` (R16, R64). -/
def State.faultO (s : State) : BitVec 1 := BitVec.ofBool s.fault

/-- The output `fcause_o` (R16, R64). -/
def State.fcauseO (s : State) : BitVec 3 := s.fcause

end Sys2Proof.Machine
end

