-- ==== Sys2Proof/Machine/Operands.lean ====
section
/-! DEFINITION. How operands are read (spec/30_encoding.md R54) and the arithmetic of the codec
(spec/41_channel_mask_codec.md R91 to R94, R97). -/

namespace Sys2Proof.Machine

/-- `clamp` of R7. -/
def clamp (c lo hi : Int) : Int := if c < lo then lo else if hi < c then hi else c

/-- The number of bits READBITS reads: `clamp(sint32(A), 1, 32)` (R54, R72, D7). -/
def bitCount (count : Word) : Nat := (clamp count.toInt Config.minCount Config.maxCount).toNat

/-- The least index from `i` on, of `fuel` indices, whose bit of `m` is 1. -/
def lowestFrom (m : Word) : Nat → Nat → Nat
  | 0, _ => 0
  | fuel + 1, i => if m.getLsbD i then i else lowestFrom m fuel (i + 1)

/-- `shiftOf` (R91): `ctz`, and 0 for a mask of 0. -/
def shiftOf (mask : Word) : Nat := if mask = 0 then 0 else lowestFrom mask 32 0

/-- How many of the bits below `n` of `m` are 1. -/
def onesBelow (m : Word) : Nat → Nat
  | 0 => 0
  | n + 1 => onesBelow m n + (if m.getLsbD n then 1 else 0)

/-- `bitWidthOf` (R92): `popcount`. -/
def bitWidthOf (mask : Word) : Nat := onesBelow mask 32

/-- The extracted value `v = (B & A) >> S`, a logical shift (R93). -/
def extractChannel (raw mask : Word) (shift : BitVec 5) : Word := (raw &&& mask) >>> shift.toNat

/-- The quotient `t = floor(v * 255 / (2^W - 1))`, the product exact (R93, R94). Used for `W >= 1` only. -/
def rescale (v : Word) (bits : Nat) : Nat := v.toNat * Config.scale / (2 ^ bits - 1)

/-- NORM_OVF (R97, U1): truncation to the low 8 bits, or the unknown function of the component. -/
def normOvfOf (p : Config.NormOvf) (t : Quotient) : Byte :=
  match p with
  | .truncate => t.setWidth 8
  | .unconstrained => Config.freeNormOvf t

/-- The result of NORMALIZE for legal operands (R93). -/
def normalizeValue (p : Config.NormOvf) (raw mask : Word) (shift : BitVec 5) (bits : BitVec 6) : Word :=
  if bits = 0 then BitVec.ofNat 32 Config.scale
  else
    let t := rescale (extractChannel raw mask shift) bits.toNat
    if t ≤ Config.scale then BitVec.ofNat 32 t else (normOvfOf p (BitVec.ofNat 40 t)).setWidth 32

end Sys2Proof.Machine
end

