-- ==== Sys2Proof/Machine/Ops.lean ====
section
/-! DEFINITION. The operations the commands are built from: the byte source (spec/20_memory.md R30, R31), one
bit (spec/40_bitstream_reader.md R70), responses (spec/30_encoding.md R58), the fault gate (R74), fault entry
(spec/60_exceptions.md R124) and reset, the only way back from a fault (R128, R140). -/

namespace Sys2Proof.Machine

/-- The byte at an offset of the source: `mem[a]` (R7 `MemRead`, R18). An unlisted offset holds 0x00
(log entry 2). -/
def Memory.read : Memory → Nat → Byte
  | [], _ => 0
  | c :: rest, a => if c.1 = a then c.2 else Memory.read rest a

/-- The canonical form: offsets at least `lo` and strictly rising, and no byte listed that an unlisted offset
holds anyway. -/
def Memory.wfFrom : Nat → Memory → Bool
  | _, [] => true
  | lo, c :: rest => decide (lo ≤ c.1) && decide (c.2 ≠ 0) && Memory.wfFrom (c.1 + 1) rest

/-- The memory is in canonical form, so that equal contents are equal data. -/
def Memory.wf (m : Memory) : Bool := Memory.wfFrom 0 m

/-- The canonical memory that holds these bytes from offset `base` on. -/
def Memory.ofBytes (base : Nat) : List Byte → Memory
  | [] => []
  | b :: rest => if b = 0 then Memory.ofBytes (base + 1) rest else (base, b) :: Memory.ofBytes (base + 1) rest

/-- `OK(d)` (R58). -/
def Response.ok (d : Word) : Response := ⟨false, 0, d⟩

/-- `ERR(c)` (R58): `DATA` is 0, no partial result (D4). -/
def Response.error (c : BitVec 3) : Response := ⟨true, c, 0⟩

/-- The 36 bits on the port `rsp` (R58, R64). -/
def Response.pack (r : Response) : RspWord := BitVec.ofBool r.err ++ r.cause ++ r.data

/-- `RSP <- r`. -/
def State.answer (s : State) (r : Response) : State := { s with rsp := some r }

/-- The source's cursor moves (R31, R113); nothing else changes. -/
def State.placePos (s : State) (p : Nat) : State := { s with pos := p }

/-- `buf <- b; cnt <- 8` (R70). -/
def State.loadBuffer (s : State) (b : Byte) : State := { s with buf := b, cnt := 8 }

/-- `cnt <- cnt - 1` (R70). -/
def State.dropBit (s : State) : State := { s with cnt := s.cnt - 1 }

/-- `cnt <- 0` (R73). -/
def State.emptyBuffer (s : State) : State := { s with cnt := 0 }

/-- What `rst` does to the block (R21, R140, R142): the source, its cursor and NORM_OVF stay. The response port
is cleared (log entry 3). -/
def State.blockReset (s : State) : State :=
  { s with buf := 0, cnt := 0, fault := false, fcause := 0, rsp := none }

/-- Attach a byte source with this content (R18, R143 step 1). -/
def State.attach (s : State) (bytes : List Byte) : State :=
  { s with len := bytes.length, mem := Memory.ofBytes 0 bytes }

/-- How an operation inside a command ends: with a value, or by `raise` (R7). Both carry the state as it then
is: state changes made before a `raise` stay made (R124). -/
inductive Taken (α : Type) where
  | value (a : α) (s : State)
  | raised (c : Cause) (s : State)
  deriving DecidableEq, Repr

/-- `SrcNext()` (R31). -/
def srcNext (s : State) : Taken Byte :=
  if s.len ≤ s.pos then .raised .unexpectedEndOfData s
  else .value (s.mem.read s.pos) (s.placePos (s.pos + 1))

/-- The first half of `NextBit()` (R70): pull a fresh byte if the buffer is exhausted. -/
def fillBuffer (s : State) : Taken Unit :=
  if s.cnt = 0 then
    match srcNext s with
    | .value b s' => .value () (s'.loadBuffer b)
    | .raised c s' => .raised c s'
  else .value () s

/-- `NextBit()` (R70): the most significant unreturned bit. -/
def nextBit (s : State) : Taken Bool :=
  match fillBuffer s with
  | .value _ s' => .value (s'.buf.getLsbD (s'.cnt - 1)) s'.dropBit
  | .raised c s' => .raised c s'

/-- `zext_32` of one bit. -/
def bitWord (b : Bool) : Word := if b then 1 else 0

/-- The loop of READBITS (R72): `n` times, `acc <- (acc << 1) | zext_32(NextBit())`. -/
def takeBits : Nat → Word → State → Taken Word
  | 0, acc, s => .value acc s
  | n + 1, acc, s =>
    match nextBit s with
    | .value b s' => takeBits n ((acc <<< 1) ||| bitWord b) s'
    | .raised c s' => .raised c s'

/-- Fault entry (R124): record the cause, answer `ERR(c)`, end the command. Nothing is saved elsewhere and
control goes nowhere. There is no return from a fault but `State.blockReset` (R128). -/
def takeFault (c : Cause) (s : State) : State := (s.recordFault c).answer (.error c.code)

/-- The end of a command: `RSP <- OK(d)`, or fault entry. -/
def complete : Taken Word → Host.Outcome State Fault Refusal
  | .value d s => .next (s.answer (.ok d))
  | .raised c s => .next (takeFault c s)

/-- The fault gate of the reader commands (R74, R127): while FAULT is set, answer `ERR(FCAUSE)` and do nothing
else. -/
def gated (s : State) (body : Host.Outcome State Fault Refusal) : Host.Outcome State Fault Refusal :=
  if s.fault then .next (s.answer (.error s.fcause)) else body

end Sys2Proof.Machine
end

