-- ==== Sys2Proof/Machine/Codec.lean ====
section
/-! DEFINITION. The Channel Mask Codec commands (spec/41_channel_mask_codec.md R90 to R93, R97). They are pure:
the block's state is neither read nor written, and FAULT does not stop them (R90, R127). -/

namespace Sys2Proof.Machine

/-- SHIFTOF (R91). -/
def execShiftof (mask : Word) (s : State) : Host.Outcome State Fault Refusal :=
  complete (.value (BitVec.ofNat 32 (shiftOf mask)) s)

/-- BITWIDTHOF (R92). -/
def execBitwidthof (mask : Word) (s : State) : Host.Outcome State Fault Refusal :=
  complete (.value (BitVec.ofNat 32 (bitWidthOf mask)) s)

/-- NORMALIZE (R93). A `bits` of 33 to 63 has only illegal words, and these raise IllegalCommand (R57 case 5);
the decoder never gives one to this meaning. -/
def execNormalize (raw mask : Word) (shift : BitVec 5) (bits : BitVec 6) (s : State) :
    Host.Outcome State Fault Refusal :=
  if bits.toNat ≤ Config.maxBits then complete (.value (normalizeValue s.normOvf raw mask shift bits) s)
  else complete (.raised .illegalCommand s)

end Sys2Proof.Machine
end

