-- ==== Sys2Proof/Machine/Reader.lean ====
section
/-! DEFINITION. The Bit Stream Reader commands (spec/40_bitstream_reader.md R71 to R74). -/

namespace Sys2Proof.Machine

/-- READBIT (R71). -/
def execReadbit (s : State) : Host.Outcome State Fault Refusal :=
  gated s <|
    match nextBit s with
    | .value b s' => complete (.value (bitWord b) s')
    | .raised c s' => complete (.raised c s')

/-- READBITS (R72). -/
def execReadbits (count : Word) (s : State) : Host.Outcome State Fault Refusal :=
  gated s (complete (takeBits (bitCount count) 0 s))

/-- RESETBITBUF (R73). -/
def execResetbitbuf (s : State) : Host.Outcome State Fault Refusal :=
  gated s (complete (.value 0 s.emptyBuffer))

end Sys2Proof.Machine
end

