-- ==== Sys2Proof/Machine/Dispatch.lean ====
section
/-! DEFINITION. One arm per command of spec/30_encoding.md R55. -/

namespace Sys2Proof.Machine

def exec (i : Instr) (s : State) : Host.Outcome State Fault Refusal :=
  match i with
  | .readbit => Sys2Proof.Machine.execReadbit s
  | .readbits count => Sys2Proof.Machine.execReadbits count s
  | .resetbitbuf => Sys2Proof.Machine.execResetbitbuf s
  | .shiftof mask => Sys2Proof.Machine.execShiftof mask s
  | .bitwidthof mask => Sys2Proof.Machine.execBitwidthof mask s
  | .normalize raw mask shift bits => Sys2Proof.Machine.execNormalize raw mask shift bits s

end Sys2Proof.Machine
end

