-- ==== Sys2Proof/Machine/Command.lean ====
section
/-! DEFINITION. A command word presented to the block (spec/30_encoding.md R51; spec/60_exceptions.md R122,
R126) and the other moves of the host (spec/42_boundary_usage.md R113; spec/70_reset_and_hazards.md R140,
R142, R143; spec/93_implementation_defined.md U14). -/

namespace Sys2Proof.Machine

/-- One command, atomically (R51): the word is checked first, whatever FAULT is (R122, R126); a legal command is
executed by its own rule. -/
def runCommand (cw : CmdWord) (s : State) : Host.Outcome State Fault Refusal :=
  match decode cw with
  | .legal i => exec i s
  | .illegal _ => .next (takeFault .illegalCommand s)

/-- How many byte requests a command made that took `s` to `t`: one per byte pulled (R31, R36), and one more if
the source answered end of data (R64 `src_eod`). -/
def requests (s t : State) : Nat :=
  (t.pos - s.pos) +
    (if s.fault = false ∧ t.fault = true ∧ t.fcause = Cause.code .unexpectedEndOfData then 1 else 0)

/-- A command on a source that answers `answered` byte requests and no more (U14): it completes if it needs no
more than those, and otherwise never does. -/
def runStalled (cw : CmdWord) (answered : Nat) (s : State) : Host.Outcome State Fault Refusal :=
  match runCommand cw s with
  | .next t => if requests s t ≤ answered then .next t else .fault .sourceNeverAnswers
  | .fault r => .fault r
  | .refused r => .refused r

/-- A command ended by `rst` before its response (R140): no response; the block is at its reset values; the
bytes the source had given stay given, since reset does not move `pos` (R142). Log entry 6. -/
def runAborted (cw : CmdWord) (answered : Nat) (s : State) : Host.Outcome State Fault Refusal :=
  match runCommand cw s with
  | .next t => .next (s.placePos (min (s.pos + answered) t.pos)).blockReset
  | .fault r => .fault r
  | .refused r => .refused r

/-- The host moves the source's cursor to any offset from 0 to `len` (R113); the block does not notice (R147). -/
def hostMove (p : Nat) (s : State) : Host.Outcome State Fault Refusal :=
  if p ≤ s.len then .next (s.placePos p) else .refused .posOutsideSource

/-- The host's three steps before a session (R143): attach the source, reset the block, place the cursor. -/
def startSession (bytes : List Byte) (p : Nat) (s : State) : Host.Outcome State Fault Refusal :=
  if Config.sourceLimit ≤ bytes.length then .refused .sourceTooLong
  else hostMove p (s.attach bytes).blockReset

/-- One move of the host and the block's answer to it. -/
def perform (e : HostEvent) (s : State) : Host.Outcome State Fault Refusal :=
  match e with
  | .command cw => runCommand cw s
  | .commandStalled cw answered => runStalled cw answered s
  | .movePos p => hostMove p s
  | .rst => .next s.blockReset
  | .rstDuring cw answered => runAborted cw answered s
  | .startSession bytes p => startSession bytes p s

/-- The next move of the host is taken off the list. -/
def State.setInputs (s : State) (es : List HostEvent) : State := { s with inputs := es }

end Sys2Proof.Machine
end

