-- ==== Sys2Proof/Machine/Step.lean ====
section
/-! DEFINITION. One step: the host's next move and the block's answer (spec/30_encoding.md R51,
spec/92_eei_decisions.md D23). -/

namespace Sys2Proof.Machine

/-- The block takes what the host presents next (R14, R51). With nothing presented it waits: nothing changes
(D23: the block never halts by itself). -/
def step (s : State) : Host.Outcome State Fault Refusal :=
  match s.inputs with
  | [] => .next s
  | e :: rest => perform e (s.setInputs rest)

/-- Where a command comes from is the command port: the host presents this word next (R50, R51, log entry 4).
R50 has commands of exactly 96 bits. DESIGN CHOICE, log entry 15: of a number of fewer than 96 bits the missing high
ones are 0, and of one of more than 96 bits the low 96 are presented. -/
def State.withFetchWord (s : State) (nbits w : Nat) : State :=
  s.setInputs (.command (BitVec.ofNat 96 (w % 2 ^ nbits)) :: s.inputs)

end Sys2Proof.Machine
end

