-- ==== Sys2Proof/Machine/Usage.lean ====
section
/-! DEFINITION. How the host uses the block: the pseudo-instructions (spec/30_encoding.md R62), the row
protocol and its padding (spec/42_boundary_usage.md R111, R112), pixel words (R114) and default masks (R115).
None of this is behaviour of the block; `step` calls none of it. -/

namespace Sys2Proof.Machine

/-- ENDROW (R62). -/
def pseudoEndrow : List Instr := [.resetbitbuf]

/-- READPIX `d`, for `d` in 1, 4, 8 (R62). -/
def pseudoReadpix (d : Nat) : Option (List Instr) :=
  if d = 1 ∨ d = 4 ∨ d = 8 then some [.readbits (BitVec.ofNat 32 d)] else none

/-- The third command of CHANNEL: the host carries the first two answers into `S` and `W` (R62). -/
def channelThird (raw mask : Word) (s w : Word) : Instr :=
  .normalize raw mask (s.setWidth 5) (w.setWidth 6)

/-- CHANNEL `raw, mask` (R62, R114): `s` and `w` are what the first two commands answer. -/
def pseudoChannel (raw mask : Word) : List Instr :=
  [.shiftof mask, .bitwidthof mask,
    channelThird raw mask (BitVec.ofNat 32 (shiftOf mask)) (BitVec.ofNat 32 (bitWidthOf mask))]

/-- The bytes the pixels of an indexed row occupy (R112). -/
def rowBytes (width d : Nat) : Nat := (width * d + 7) / 8

/-- The padding bytes of an indexed row (R112). -/
def rowPadding (width d : Nat) : Nat := (4 - rowBytes width d % 4) % 4

/-- The host's moves for one indexed row that starts at offset `start` (R111): a READBITS per pixel, the row-end
reset (R146), and the skip of the padding. -/
def rowEvents (width d start : Nat) : List HostEvent :=
  List.replicate width (.command (encode (.readbits (BitVec.ofNat 32 d)))) ++
    [.command (encode .resetbitbuf), .movePos (start + rowBytes width d + rowPadding width d)]

/-- A pixel word from source bytes, least significant byte first, zero-extended (R114; the opposite of what
READBITS returns, R34). -/
def leWord : List Byte → Word
  | [] => 0
  | b :: rest => b.setWidth 32 ||| (leWord rest <<< 8)

/-- The four channels of a pixel (R115, R116). -/
inductive Channel where
  | blue
  | green
  | red
  | alpha
  deriving DecidableEq, Repr

/-- The default masks (R115). -/
def defaultMask (bitDepth : Nat) : Channel → Word
  | .blue => 0x000000FF
  | .green => 0x0000FF00
  | .red => 0x00FF0000
  | .alpha => if bitDepth = 32 then 0xFF000000 else 0

end Sys2Proof.Machine
end

