-- ==== Sys2Proof/Safety.lean ====
section
/-! DEFINITION. What claims about the block are stated in: the invariants of spec/10_state.md R20, the bits still
to come, the bit-address view of R19 and spec/40_bitstream_reader.md R75, and a successful run
(spec/60_exceptions.md R133). -/

namespace Sys2Proof.Machine

/-- What holds between any two commands (R20 items 1 to 4), with what R18 says of the source. -/
structure State.Inv (s : State) : Prop where
  cntRange : s.cnt ≤ 7
  faultCause : s.fault = false ↔ s.fcause = 0
  causeRange : s.fcause.toNat ≤ 2
  posRange : s.pos ≤ s.len
  lenRange : s.len < Config.sourceLimit
  memCanonical : s.mem.wf = true
  memInside : ∀ c ∈ s.mem, c.1 < s.len

/-- Nobody but the block has moved the cursor since the last byte pull, as far as the state shows it (R19, R75):
a part-used buffer is the byte before the cursor. -/
structure State.Synced (s : State) : Prop where
  cntRange : s.cnt ≤ 7
  posRange : s.pos ≤ s.len
  bufIsSource : 0 < s.cnt → 0 < s.pos ∧ s.buf = s.mem.read (s.pos - 1)

/-- How many bits the reader can still return (R72): `cnt + 8*(len - pos)`. -/
def State.bitsLeft (s : State) : Nat := s.cnt + 8 * (s.len - s.pos)

/-- Bit `k` of the source read as one string of bits (R75 `bit(k)`). -/
def State.sourceBit (s : State) (k : Nat) : Bool := (s.mem.read (k / 8)).getLsbD (7 - k % 8)

/-- The bit address of the next bit (R19, R75 `q`). -/
def State.bitAddress (s : State) : Nat := 8 * s.pos - s.cnt

/-- The number whose binary digits are `n` bits of the source from bit `q` on, most significant first (R75). -/
def State.sourceValue (s : State) (q : Nat) : Nat → Nat
  | 0 => 0
  | n + 1 => 2 * s.sourceValue q n + (s.sourceBit (q + n)).toNat

/-- The `i`-th bit still to be returned, whatever `pos` was moved to: first the bits of `buf`, then those of the
source from `pos` on (R70, R33, R34, R147). -/
def State.pendingBit (s : State) (i : Nat) : Bool :=
  if i < s.cnt then s.buf.getLsbD (s.cnt - 1 - i)
  else (s.mem.read (s.pos + (i - s.cnt) / 8)).getLsbD (7 - (i - s.cnt) % 8)

/-- The number whose binary digits are the next `n` bits, most significant first (R72). -/
def State.pendingValue (s : State) : Nat → Nat
  | 0 => 0
  | n + 1 => 2 * s.pendingValue n + (s.pendingBit n).toNat

/-- How many bytes the next `n` bits pull (R36): 0 if `n <= cnt`, else `ceil((n - cnt) / 8)`. -/
def State.pulls (s : State) (n : Nat) : Nat := (n - s.cnt + 7) / 8

/-- The state after the next `n` bits have been taken (R36, R70, R72): the last byte pulled is in `buf`. -/
def State.afterBits (s : State) (n : Nat) : State :=
  { s with
    buf := if s.pulls n = 0 then s.buf else s.mem.read (s.pos + s.pulls n - 1)
    cnt := s.cnt + 8 * s.pulls n - n
    pos := s.pos + s.pulls n }

/-- The state when every bit of the source has been taken (R72: `cnt == 0`, `pos == len`, the last byte pulled in
`buf`, or its old value when none was). -/
def State.drained (s : State) : State :=
  { s with
    buf := if s.pos < s.len then s.mem.read (s.len - 1) else s.buf
    cnt := 0
    pos := max s.pos s.len }

/-- The commands of the Bit Stream Reader (R1, R74). -/
def isReader : Instr → Bool
  | .readbit => true
  | .readbits _ => true
  | .resetbitbuf => true
  | .shiftof _ => false
  | .bitwidthof _ => false
  | .normalize _ _ _ _ => false

/-- The moves of the host that reset the block (R140, R143). -/
def HostEvent.isReset : HostEvent → Bool
  | .command _ => false
  | .commandStalled _ _ => false
  | .movePos _ => false
  | .rst => true
  | .rstDuring _ _ => true
  | .startSession _ _ => true

/-- The state after a run of commands, none if one of them did not end in a next state. -/
def runInstrs : List Instr → State → Option State
  | [], s => some s
  | i :: rest, s =>
    match exec i s with
    | .next t => runInstrs rest t
    | .fault _ => none
    | .refused _ => none

/-- The responses of a run of commands, in order. -/
def responsesOf : List Instr → State → List (Option Response)
  | [], _ => []
  | i :: rest, s =>
    match exec i s with
    | .next t => t.rsp :: responsesOf rest t
    | .fault _ => []
    | .refused _ => []

/-- How many bits a command of the reader takes (R71, R72, R77). -/
def bitsTaken : Instr → Nat
  | .readbit => 1
  | .readbits count => bitCount count
  | .resetbitbuf => 0
  | .shiftof _ => 0
  | .bitwidthof _ => 0
  | .normalize _ _ _ _ => 0

/-- The data of a response as a number, 0 if there is none. -/
def dataOf : Option Response → Nat
  | some r => r.data.toNat
  | none => 0

/-- A run ended without a recorded fault (R133). -/
def State.succeeded (s : State) : Bool := !s.fault

end Sys2Proof.Machine
end

