-- ==== Sys2Proof/Certificates/Slice0/Obligations.lean ====
section
/-! DEFINITION. The statements for the provers. Each docstring names the rule of spec/ it formalises. -/

open Sys2Proof Sys2Proof.Machine

/-- Words of spec/30_encoding.md R55 and R61 and of spec/95_test_vectors.md decode to the command they stand
for; the all-zero word and `OP == 7` are illegal. -/
def Obligations.SampleWordsDecode : Prop :=
  decode 0x010000000000000000000000 = .legal .readbit ∧
  decode 0x020000000000000400000000 = .legal (.readbits 4) ∧
  decode 0x02000000FFFFFFFF00000000 = .legal (.readbits (BitVec.ofInt 32 (-1))) ∧
  decode 0x030000000000000000000000 = .legal .resetbitbuf ∧
  decode 0x0400000000FF000000000000 = .legal (.shiftof 0x00FF0000) ∧
  decode 0x05000000000007E000000000 = .legal (.bitwidthof 0x000007E0) ∧
  decode 0x0600100800FF0000FFFF0000 = .legal (.normalize 0xFFFF0000 0x00FF0000 16 8) ∧
  decode 0x000000000000000000000000 = .illegal .reservedOpcode ∧
  decode 0x070000000000000000000000 = .illegal .reservedOpcode

/-- The state after reset (spec/10_state.md R21): the block's four values are the spec's. That no source is
attached (`len`, `mem`, `pos`), that NORM_OVF truncates, that no response stands and that nothing is presented is
the model's choice (log entries 1, 3, 4 and 5). -/
def Obligations.ResetStateValues : Prop :=
  State.reset.cnt = 0 ∧ State.reset.buf = 0 ∧ State.reset.fault = false ∧ State.reset.fcause = 0 ∧
  State.reset.pos = 0 ∧ State.reset.len = 0 ∧ State.reset.mem = [] ∧
  State.reset.normOvf = .truncate ∧ State.reset.rsp = none ∧ State.reset.inputs = []

/-- The invariant of spec/10_state.md R20 holds after reset. -/
def Obligations.ResetMeetsInv : Prop := State.reset.Inv

/-- spec/30_encoding.md R51: when the word presented decodes to a command, a step is that command's meaning at
the state with the word taken off the host's list, and nothing else. The list is the model's way of holding what
the host presents (log entry 4). -/
def Obligations.StepRunsDecodedCommand : Prop :=
  ∀ (s : State) (cw : CmdWord) (rest : List HostEvent) (i : Instr),
    s.inputs = .command cw :: rest → decode cw = .legal i → step s = exec i { s with inputs := rest }

/-- spec/30_encoding.md R57 whole, and spec/60_exceptions.md R122: the illegal words are exactly the five cases,
read off the word by the bit positions of R52, and each raises IllegalCommand without any other effect, whatever
FAULT is. -/
def Obligations.IllegalWordsRaiseIllegalCommand : Prop :=
  (∀ cw : CmdWord, (∃ why, decode cw = .illegal why) ↔
    (((cw.extractLsb 91 88).toNat = 0 ∨ 7 ≤ (cw.extractLsb 91 88).toNat) ∨
     (cw.extractLsb 95 92 ≠ 0 ∨ cw.extractLsb 87 77 ≠ 0 ∨ cw.extractLsb 71 70 ≠ 0) ∨
     (((cw.extractLsb 91 88).toNat = 1 ∨ (cw.extractLsb 91 88).toNat = 3) ∧
       (cw.extractLsb 76 72 ≠ 0 ∨ cw.extractLsb 69 64 ≠ 0 ∨ cw.extractLsb 63 32 ≠ 0 ∨ cw.extractLsb 31 0 ≠ 0)) ∨
     (((cw.extractLsb 91 88).toNat = 2 ∨ (cw.extractLsb 91 88).toNat = 4 ∨ (cw.extractLsb 91 88).toNat = 5) ∧
       (cw.extractLsb 76 72 ≠ 0 ∨ cw.extractLsb 69 64 ≠ 0 ∨ cw.extractLsb 31 0 ≠ 0)) ∨
     ((cw.extractLsb 91 88).toNat = 6 ∧ 33 ≤ (cw.extractLsb 69 64).toNat))) ∧
  (∀ (s : State) (cw : CmdWord) (rest : List HostEvent) (why : IllegalWord),
    s.inputs = .command cw :: rest → decode cw = .illegal why →
    step s = .next { s with
      inputs := rest
      fault := true
      fcause := if s.fault then s.fcause else 2
      rsp := some ⟨true, 2, 0⟩ })

/-- spec/60_exceptions.md R126: the order of the checks made on a command word. An illegal word is answered ERR(2)
whatever FAULT is, and leaves FCAUSE as it was if FAULT is 1; a reader command while FAULT is 1 is refused with
ERR(FCAUSE) and changes nothing; otherwise the command's own meaning runs. -/
def Obligations.ChecksMadeInOrder : Prop :=
  ∀ (s : State) (cw : CmdWord) (rest : List HostEvent), s.inputs = .command cw :: rest →
    (∀ why, decode cw = .illegal why → ∃ t, step s = .next t ∧ t.rsp = some ⟨true, 2, 0⟩ ∧ t.fault = true ∧
      (s.fault = true → t.fcause = s.fcause) ∧ t.buf = s.buf ∧ t.cnt = s.cnt ∧ t.pos = s.pos ∧ t.mem = s.mem) ∧
    (∀ i, decode cw = .legal i → isReader i = true → s.fault = true →
      step s = .next { s with inputs := rest, rsp := some ⟨true, s.fcause, 0⟩ }) ∧
    (∀ i, decode cw = .legal i → (isReader i = false ∨ s.fault = false) →
      step s = exec i { s with inputs := rest })

/-- spec/30_encoding.md R63: every command with operands in range has a word that decodes to it, and a legal word
is the word of what it decodes to, which is in range. -/
def Obligations.DecodeEncodeAgree : Prop :=
  (∀ i : Instr, i.wf = true → decode (encode i) = .legal i) ∧
  (∀ (cw : CmdWord) (i : Instr), decode cw = .legal i → i.wf = true ∧ encode i = cw)

/-- spec/30_encoding.md R55: a word selects a row of the opcode map exactly when it decodes to that row's command,
and no word selects two rows. -/
def Obligations.TableRowSelectsCommand : Prop :=
  (∀ (cw : CmdWord) (r : OpcodeRow), r ∈ opcodeTable →
    (r.selects cw = true ↔ ∃ i, decode cw = .legal i ∧ opcodeOf i = r.op)) ∧
  (∀ (cw : CmdWord) (r q : OpcodeRow), r ∈ opcodeTable → q ∈ opcodeTable → r.selects cw = true →
    q.selects cw = true → r = q) ∧
  (∀ r ∈ opcodeTable, r.selects 0 = false)

/-- spec/40_bitstream_reader.md R71 whole: the word of READBIT; a bit from the buffer; a bit from a fresh byte; the
end of the source; the fault gate. Each clause gives the whole next state, so everything not named is unchanged. -/
def Obligations.ReadbitResult : Prop :=
  decode (cmdOfParts 0x01000000 0 0) = .legal .readbit ∧
  ∀ s : State,
    (s.fault = false → 0 < s.cnt →
      exec .readbit s = .next { s with
        cnt := s.cnt - 1
        rsp := some ⟨false, 0, if s.buf.getLsbD (s.cnt - 1) then 1 else 0⟩ }) ∧
    (s.fault = false → s.cnt = 0 → s.pos < s.len →
      exec .readbit s = .next { s with
        buf := s.mem.read s.pos
        cnt := 7
        pos := s.pos + 1
        rsp := some ⟨false, 0, if (s.mem.read s.pos).getLsbD 7 then 1 else 0⟩ }) ∧
    (s.fault = false → s.cnt = 0 → s.len ≤ s.pos →
      exec .readbit s = .next { s with fault := true, fcause := 1, rsp := some ⟨true, 1, 0⟩ }) ∧
    (s.fault = true → exec .readbit s = .next { s with rsp := some ⟨true, s.fcause, 0⟩ })

/-- spec/40_bitstream_reader.md R72 whole: the word; the clamped count; the number whose digits are the next `n`
bits, first the bits `buf[cnt-1:0]` and then those of the bytes from `pos` on, the first bit taken the highest; the
bytes pulled; the fault exactly when fewer than `n` bits are available, with the bits before it taken and not
reported; the fault gate. Each clause gives the whole next state. -/
def Obligations.ReadbitsResult : Prop :=
  ∀ (s : State) (count : Word),
    decode (cmdOfParts 0x02000000 count 0) = .legal (.readbits count) ∧
    ∃ n : Nat,
      (count.toInt < 1 → n = 1) ∧ (1 ≤ count.toInt → count.toInt ≤ 32 → (n : Int) = count.toInt) ∧
      (32 < count.toInt → n = 32) ∧
      s.pendingValue n < 2 ^ n ∧
      (s.fault = false → n ≤ s.cnt + 8 * (s.len - s.pos) →
        exec (.readbits count) s = .next { s with
          buf := if n ≤ s.cnt then s.buf else s.mem.read (s.pos + (n - s.cnt + 7) / 8 - 1)
          cnt := s.cnt + 8 * ((n - s.cnt + 7) / 8) - n
          pos := s.pos + (n - s.cnt + 7) / 8
          rsp := some ⟨false, 0, BitVec.ofNat 32 (s.pendingValue n)⟩ }) ∧
      (s.fault = false → s.cnt + 8 * (s.len - s.pos) < n →
        exec (.readbits count) s = .next { s with
          buf := if s.pos < s.len then s.mem.read (s.len - 1) else s.buf
          cnt := 0
          pos := max s.pos s.len
          fault := true
          fcause := 1
          rsp := some ⟨true, 1, 0⟩ }) ∧
      (s.fault = true → exec (.readbits count) s = .next { s with rsp := some ⟨true, s.fcause, 0⟩ })

/-- spec/40_bitstream_reader.md R73 whole: the word; `cnt <- 0` and nothing else; the fault gate; idempotent. -/
def Obligations.ResetbitbufResult : Prop :=
  decode (cmdOfParts 0x03000000 0 0) = .legal .resetbitbuf ∧
  ∀ s : State,
    (s.fault = false → exec .resetbitbuf s = .next { s with cnt := 0, rsp := some ⟨false, 0, 0⟩ }) ∧
    (s.fault = true → exec .resetbitbuf s = .next { s with rsp := some ⟨true, s.fcause, 0⟩ }) ∧
    (∃ t, exec .resetbitbuf s = .next t ∧ exec .resetbitbuf t = .next t)

/-- spec/60_exceptions.md R127: while FAULT is 1 the three reader commands only answer `ERR(FCAUSE)`; the three
codec commands answer as they would with no fault recorded. -/
def Obligations.FaultGateStopsReaderOnly : Prop :=
  ∀ (s : State) (i : Instr), s.fault = true → i.wf = true →
    (isReader i = true → exec i s = .next { s with rsp := some ⟨true, s.fcause, 0⟩ }) ∧
    (isReader i = false → ∃ d : Word,
      exec i s = .next { s with rsp := some ⟨false, 0, d⟩ } ∧
      exec i { s with fault := false, fcause := 0 } =
        .next { s with fault := false, fcause := 0, rsp := some ⟨false, 0, d⟩ })

/-- spec/41_channel_mask_codec.md R91 whole: the word; 0 for a mask of 0, else the least `d` whose bit is 1. -/
def Obligations.ShiftofResult : Prop :=
  ∀ (s : State) (mask : Word),
    decode (cmdOfParts 0x04000000 mask 0) = .legal (.shiftof mask) ∧
    ∃ d : Nat, exec (.shiftof mask) s = .next { s with rsp := some ⟨false, 0, BitVec.ofNat 32 d⟩ } ∧
      (mask = 0 → d = 0) ∧
      (mask ≠ 0 → d < 32 ∧ mask.getLsbD d = true ∧ ∀ j, j < d → mask.getLsbD j = false)

/-- spec/41_channel_mask_codec.md R92 whole: the word; the number of bits of the mask that are 1, 0 to 32, which
for a contiguous mask is its width. -/
def Obligations.BitwidthofResult : Prop :=
  (∀ (s : State) (mask : Word),
    decode (cmdOfParts 0x05000000 mask 0) = .legal (.bitwidthof mask) ∧
    (Finset.univ.filter fun j : Fin 32 => mask.getLsbD j = true).card ≤ 32 ∧
    exec (.bitwidthof mask) s = .next { s with
      rsp := some ⟨false, 0, BitVec.ofNat 32 (Finset.univ.filter fun j : Fin 32 => mask.getLsbD j = true).card⟩ }) ∧
  (∀ (s : State) (w k : Nat), 1 ≤ w → k + w ≤ 32 →
    exec (.bitwidthof (BitVec.ofNat 32 ((2 ^ w - 1) * 2 ^ k))) s =
      .next { s with rsp := some ⟨false, 0, BitVec.ofNat 32 w⟩ })

/-- spec/41_channel_mask_codec.md R93: the word; 255 for `W == 0`; else the exact quotient of integers when it is
at most 255, and NORM_OVF of it when it is larger: some 8-bit value, which is the quotient modulo 256 where the
component has the spec's own NORM_OVF. Nothing but the response changes. -/
def Obligations.NormalizeResult : Prop :=
  ∀ (s : State) (raw mask : Word) (shift : BitVec 5) (bits : BitVec 6), bits.toNat ≤ 32 →
    decode (cmdOfParts (0x06000000 ||| (shift.setWidth 32 <<< 8) ||| bits.setWidth 32) mask raw) =
      .legal (.normalize raw mask shift bits) ∧
    (bits.toNat = 0 → exec (.normalize raw mask shift bits) s = .next { s with rsp := some ⟨false, 0, 255⟩ }) ∧
    (∀ t : Nat, bits.toNat ≠ 0 →
      t = (raw &&& mask).toNat / 2 ^ shift.toNat * 255 / (2 ^ bits.toNat - 1) →
      (t ≤ 255 → exec (.normalize raw mask shift bits) s =
        .next { s with rsp := some ⟨false, 0, BitVec.ofNat 32 t⟩ }) ∧
      (255 < t → ∃ b : Byte, exec (.normalize raw mask shift bits) s =
        .next { s with rsp := some ⟨false, 0, b.setWidth 32⟩ } ∧
        (s.normOvf = .truncate → b.toNat = t % 256)))

/-- spec/41_channel_mask_codec.md R97, spec/93_implementation_defined.md U1: a quotient above 255 has 40 bits, and
two commands of one component with the same such quotient give the same answer, in any two states. Which 8-bit
value that is, is free unless NORM_OVF truncates (log entry 1). -/
def Obligations.NormalizeOverflowByQuotientOnly : Prop :=
  ∀ (s u : State) (raw mask raw' mask' : Word) (shift shift' : BitVec 5) (bits bits' : BitVec 6) (t : Nat),
    s.normOvf = u.normOvf →
    1 ≤ bits.toNat → bits.toNat ≤ 32 → 1 ≤ bits'.toNat → bits'.toNat ≤ 32 →
    t = (raw &&& mask).toNat / 2 ^ shift.toNat * 255 / (2 ^ bits.toNat - 1) →
    t = (raw' &&& mask').toNat / 2 ^ shift'.toNat * 255 / (2 ^ bits'.toNat - 1) → 255 < t →
    t < 2 ^ 40 ∧ ∃ b : Byte,
      exec (.normalize raw mask shift bits) s = .next { s with rsp := some ⟨false, 0, b.setWidth 32⟩ } ∧
      exec (.normalize raw' mask' shift' bits') u = .next { u with rsp := some ⟨false, 0, b.setWidth 32⟩ }

/-- A NORMALIZE with `bits` 33 to 63 is illegal (spec/30_encoding.md R57 case 5): its meaning is the entry of
IllegalCommand. That the meaning of the operands themselves says so too is the model's choice (log entry 7). -/
def Obligations.NormalizeTooManyBitsIsIllegal : Prop :=
  ∀ (s : State) (raw mask : Word) (shift : BitVec 5) (bits : BitVec 6), 32 < bits.toNat →
    decode (encode (.normalize raw mask shift bits)) = .illegal .bitsTooLarge ∧
    exec (.normalize raw mask shift bits) s = .next { s with
      fault := true
      fcause := if s.fault then s.fcause else 2
      rsp := some ⟨true, 2, 0⟩ }

/-- spec/41_channel_mask_codec.md R95: a contiguous mask with its own shift and width. SHIFTOF and BITWIDTHOF give
them back; the result is `floor(255 * v / d)` for the field `v`, at most 255, 255 exactly at full scale, 0 exactly
below `d / 255`, and it does not decrease when `v` increases. NORM_OVF is never consulted. -/
def Obligations.NormalizeContiguousMask : Prop :=
  ∀ (s : State) (w k : Nat), 1 ≤ w → k + w ≤ 32 →
    exec (.shiftof (BitVec.ofNat 32 ((2 ^ w - 1) * 2 ^ k))) s =
      .next { s with rsp := some ⟨false, 0, BitVec.ofNat 32 k⟩ } ∧
    exec (.bitwidthof (BitVec.ofNat 32 ((2 ^ w - 1) * 2 ^ k))) s =
      .next { s with rsp := some ⟨false, 0, BitVec.ofNat 32 w⟩ } ∧
    ∃ f : Nat → Nat,
      (∀ raw : Word,
        exec (.normalize raw (BitVec.ofNat 32 ((2 ^ w - 1) * 2 ^ k)) (BitVec.ofNat 5 k) (BitVec.ofNat 6 w)) s =
          .next { s with rsp := some ⟨false, 0, BitVec.ofNat 32 (f (raw.toNat / 2 ^ k % 2 ^ w))⟩ }) ∧
      (∀ v, v ≤ 2 ^ w - 1 →
        f v = 255 * v / (2 ^ w - 1) ∧ f v ≤ 255 ∧ (f v = 255 ↔ v = 2 ^ w - 1) ∧
        (f v = 0 ↔ 255 * v < 2 ^ w - 1) ∧ (w ≤ 8 → (f v = 0 ↔ v = 0))) ∧
      (∀ v v', v ≤ v' → v' ≤ 2 ^ w - 1 → f v ≤ f v')

/-- spec/41_channel_mask_codec.md R96: with `W == 8` an extracted value of at most 255 comes out unchanged. -/
def Obligations.NormalizeEightBitsIdentity : Prop :=
  ∀ (s : State) (raw mask : Word) (shift : BitVec 5), (raw &&& mask).toNat / 2 ^ shift.toNat ≤ 255 →
    exec (.normalize raw mask shift 8) s =
      .next { s with rsp := some ⟨false, 0, (raw &&& mask) >>> shift.toNat⟩ }

/-- spec/30_encoding.md R62 and spec/42_boundary_usage.md R114, R117: the three commands of CHANNEL. The answers of
the first two fit the fields of the third, whose word is always legal, and whose answer is at most 255, and 255 for
an absent mask. -/
def Obligations.ChannelSequenceAlwaysLegal : Prop :=
  ∀ (s : State) (raw mask : Word), ∃ sh w d : Word,
    exec (.shiftof mask) s = .next { s with rsp := some ⟨false, 0, sh⟩ } ∧ sh.toNat ≤ 31 ∧
    exec (.bitwidthof mask) s = .next { s with rsp := some ⟨false, 0, w⟩ } ∧ w.toNat ≤ 32 ∧
    decode (encode (channelThird raw mask sh w)) = .legal (channelThird raw mask sh w) ∧
    exec (channelThird raw mask sh w) s = .next { s with rsp := some ⟨false, 0, d⟩ } ∧ d.toNat ≤ 255 ∧
    (mask = 0 → d = 255) ∧
    pseudoChannel raw mask = [.shiftof mask, .bitwidthof mask, channelThird raw mask sh w]

/-- spec/10_state.md R22: a codec command gives the same answer in any two states of components with one NORM_OVF,
never an error, and changes nothing but the response. -/
def Obligations.CodecHasNoState : Prop :=
  ∀ (s u : State) (i : Instr), isReader i = false → i.wf = true → s.normOvf = u.normOvf →
    ∃ d : Word, exec i s = .next { s with rsp := some ⟨false, 0, d⟩ } ∧
      exec i u = .next { u with rsp := some ⟨false, 0, d⟩ }

/-- spec/10_state.md R20 items 1 to 4, with R18 and the canonical form of the source's content: every step, of
every move of the host, from every state that meets the invariant, keeps it. -/
def Obligations.InvKeptByEveryStep : Prop :=
  ∀ s t : State, s.Inv → step s = .next t → t.Inv

/-- spec/60_exceptions.md R128: nothing but a reset clears FAULT or FCAUSE; a reset does, and keeps nothing of
`buf` and `cnt`; a refused command issued again gives the same refusal. -/
def Obligations.FaultClearedOnlyByReset : Prop :=
  (∀ s t : State, step s = .next t → s.fault = true →
    (∀ e rest, s.inputs = e :: rest → e.isReset = false) → t.fault = true ∧ t.fcause = s.fcause) ∧
  (∀ (s : State) (rest : List HostEvent), s.inputs = .rst :: rest →
    ∃ t, step s = .next t ∧ t.fault = false ∧ t.fcause = 0 ∧ t.cnt = 0 ∧ t.buf = 0) ∧
  (∀ (s : State) (i : Instr), s.fault = true → isReader i = true →
    ∃ t, exec i s = .next t ∧ t.rsp = some ⟨true, s.fcause, 0⟩ ∧ exec i t = .next t)

/-- spec/10_state.md R13 and R20 item 5, spec/60_exceptions.md R120, R121, R124 and R125: when a command takes the
block from no fault to a fault, it is either a READBIT or READBITS that found the source exhausted (cause 1, the
buffer empty and the cursor at the end) or an illegal word (cause 2, buffer and cursor as before), and the response
carries the cause and no data. -/
def Obligations.FirstFaultOfSession : Prop :=
  ∀ (s t : State) (cw : CmdWord) (rest : List HostEvent),
    s.inputs = .command cw :: rest → s.fault = false → s.pos ≤ s.len → step s = .next t → t.fault = true →
    (t.fcause = 1 ∧ t.rsp = some ⟨true, 1, 0⟩ ∧ t.cnt = 0 ∧ t.pos = t.len ∧
      ∃ i, decode cw = .legal i ∧ (i = .readbit ∨ ∃ count, i = .readbits count)) ∨
    (t.fcause = 2 ∧ t.rsp = some ⟨true, 2, 0⟩ ∧ t.buf = s.buf ∧ t.cnt = s.cnt ∧ t.pos = s.pos ∧
      ∃ why, decode cw = .illegal why)

/-- spec/20_memory.md R30, R31, R36 and R37: no command writes the source or its length; the cursor moves forward
by at most 4 and not past the end, so every byte reads as before. -/
def Obligations.CommandsReadSourceForwards : Prop :=
  ∀ (s t : State) (cw : CmdWord) (rest : List HostEvent),
    s.inputs = .command cw :: rest → step s = .next t →
    (∀ a, t.mem.read a = s.mem.read a) ∧ t.mem = s.mem ∧ t.len = s.len ∧
    s.pos ≤ t.pos ∧ t.pos ≤ s.pos + 4 ∧ t.pos ≤ max s.pos s.len

/-- The writes of spec/10_state.md R15: READBIT and READBITS write `buf`, `cnt`, `pos` and on a fault FAULT and
FCAUSE; RESETBITBUF writes `cnt`; the codec commands write nothing; an illegal word writes FAULT and FCAUSE. All of
them give a response. Nothing else changes, no byte of the source among it. -/
def Obligations.CommandWritesOnlyItsState : Prop :=
  (∀ (s t : State) (i : Instr), exec i s = .next t →
    ((i = .readbit ∨ ∃ count, i = .readbits count) →
      t = { s with buf := t.buf, cnt := t.cnt, pos := t.pos, fault := t.fault, fcause := t.fcause, rsp := t.rsp } ∧
      ((t.fault = s.fault ∧ t.fcause = s.fcause) ∨ t.rsp = some ⟨true, 1, 0⟩)) ∧
    (i = .resetbitbuf → t = { s with cnt := t.cnt, rsp := t.rsp }) ∧
    (isReader i = false → i.wf = true → t = { s with rsp := t.rsp }) ∧
    (∀ a, t.mem.read a = s.mem.read a)) ∧
  (∀ (s t : State) (cw : CmdWord) (rest : List HostEvent) (why : IllegalWord),
    s.inputs = .command cw :: rest → decode cw = .illegal why → step s = .next t →
    t = { s with fault := t.fault, fcause := t.fcause, rsp := t.rsp, inputs := rest })

/-- spec/40_bitstream_reader.md R76: READBITS with clamped count `n` has the effect of `n` READBITs on everything
but the response, and without a fault its result is the number whose binary digits they returned, the first the
highest. -/
def Obligations.ReadbitsIsRepeatedReadbit : Prop :=
  ∀ (s : State) (count : Word), s.fault = false →
    ∃ t u : State, exec (.readbits count) s = .next t ∧
      runInstrs (List.replicate (bitCount count) .readbit) s = some u ∧
      { t with rsp := none } = { u with rsp := none } ∧
      (t.fault = false → t.rsp = some ⟨false, 0, BitVec.ofNat 32
        (∑ j ∈ Finset.range (bitCount count),
          dataOf ((responsesOf (List.replicate (bitCount count) .readbit) s).getD j none) *
            2 ^ (bitCount count - 1 - j))⟩)

/-- spec/40_bitstream_reader.md R72, corner cases: a count that clamps to 1 (every count up to 1, so every word with
bit 31 set) is READBIT in every effect and in the value; every count of 32 or more is the count 32. -/
def Obligations.ReadbitsOfOneIsReadbit : Prop :=
  (∀ (s : State) (count : Word), count.toInt ≤ 1 → exec (.readbits count) s = exec .readbit s) ∧
  (∀ (s : State) (count : Word), count.getLsbD 31 = true → exec (.readbits count) s = exec .readbit s) ∧
  (∀ (s : State) (count : Word), 32 ≤ count.toInt → exec (.readbits count) s = exec (.readbits 32) s)

/-- spec/40_bitstream_reader.md R78 whole, the three properties the document states for the reader. -/
def Obligations.ReaderDocumentProperties : Prop :=
  (∀ s : State, exec (.readbits 0) s = exec (.readbits 1) s ∧ exec (.readbits 40) s = exec (.readbits 32) s) ∧
  (∀ (s : State) (k : Nat), s.fault = false → s.cnt = 0 → s.pos + k ≤ s.len →
    ∃ t, runInstrs (List.replicate (8 * k) .readbit) s = some t ∧ t.fault = false ∧ t.cnt = 0 ∧ t.pos = s.pos + k) ∧
  (∀ s : State, s.fault = false → s.cnt = 0 → s.pos + 2 ≤ s.len →
    ∃ t, runInstrs [.readbit, .readbit, .readbit, .resetbitbuf, .readbit] s = some t ∧
      t.rsp = some ⟨false, 0, if (s.mem.read (s.pos + 1)).getLsbD 7 then 1 else 0⟩ ∧
      t.buf = s.mem.read (s.pos + 1) ∧ t.cnt = 7 ∧ t.pos = s.pos + 2)

/-- spec/40_bitstream_reader.md R77: from an exhausted buffer, a run of READBIT and READBITS without a fault that
takes `m` bits in all has pulled exactly `ceil(m / 8)` bytes. -/
def Obligations.BytesConsumedByReaderRun : Prop :=
  ∀ (s t : State) (is : List Instr), s.fault = false → s.cnt = 0 →
    (∀ i ∈ is, i = .readbit ∨ ∃ count, i = .readbits count) →
    runInstrs is s = some t → t.fault = false →
    t.pos = s.pos + ((is.map bitsTaken).sum + 7) / 8

/-- spec/40_bitstream_reader.md R75: READBIT, READBITS and RESETBITBUF as operations on the source read as one
string of bits and the bit address `q = 8*pos - cnt`. -/
def Obligations.BitAddressView : Prop :=
  ∀ s : State, s.fault = false → s.Synced →
    (s.bitAddress < 8 * s.len →
      ∃ t, exec .readbit s = .next t ∧ t.bitAddress = s.bitAddress + 1 ∧ t.Synced ∧
        t.rsp = some ⟨false, 0, if s.sourceBit s.bitAddress then 1 else 0⟩) ∧
    (s.bitAddress = 8 * s.len →
      exec .readbit s = .next { s with fault := true, fcause := 1, rsp := some ⟨true, 1, 0⟩ }) ∧
    (∀ count : Word, s.bitAddress + bitCount count ≤ 8 * s.len →
      ∃ t, exec (.readbits count) s = .next t ∧ t.bitAddress = s.bitAddress + bitCount count ∧ t.Synced ∧
        t.rsp = some ⟨false, 0, BitVec.ofNat 32 (s.sourceValue s.bitAddress (bitCount count))⟩) ∧
    (∀ count : Word, 8 * s.len < s.bitAddress + bitCount count →
      ∃ t, exec (.readbits count) s = .next t ∧ t.bitAddress = 8 * s.len ∧ t.cnt = 0 ∧ t.pos = s.len ∧
        t.rsp = some ⟨true, 1, 0⟩ ∧ t.fault = true ∧ t.fcause = 1) ∧
    (∃ t, exec .resetbitbuf s = .next t ∧ t.bitAddress = 8 * s.pos ∧
      s.bitAddress ≤ t.bitAddress ∧ t.bitAddress < s.bitAddress + 8)

/-- spec/10_state.md R19: that a part-used buffer is the byte before the cursor is kept by every step but a move of
the cursor by the host while the buffer is part-used (spec/70_reset_and_hazards.md R147). -/
def Obligations.SyncedKeptUnlessHostMoves : Prop :=
  ∀ s t : State, s.Synced → step s = .next t →
    (∀ p rest, s.inputs = .movePos p :: rest → s.cnt = 0) → t.Synced

/-- spec/42_boundary_usage.md R113: between two commands the host moves the cursor to any value from 0 to `len`, and
nothing else changes. A cursor outside the source is refused by name (log entry 8). -/
def Obligations.HostMovesCursorOnly : Prop :=
  ∀ (s : State) (p : Nat) (rest : List HostEvent), s.inputs = .movePos p :: rest →
    (p ≤ s.len → step s = .next { s with pos := p, inputs := rest }) ∧
    (s.len < p → step s = .refused .posOutsideSource)

/-- spec/70_reset_and_hazards.md R147 and spec/20_memory.md R44: after the host has moved the cursor under a part-used
buffer, the bits still in the buffer come out as if it had not; with the buffer exhausted the next bit is bit 7 of
the byte at the new cursor. -/
def Obligations.MoveUnderPartUsedBuffer : Prop :=
  (∀ (s : State) (p : Nat) (count : Word), s.fault = false → bitCount count ≤ s.cnt →
    ∃ d : Word,
      exec (.readbits count) s =
        .next { s with cnt := s.cnt - bitCount count, rsp := some ⟨false, 0, d⟩ } ∧
      exec (.readbits count) { s with pos := p } =
        .next { s with pos := p, cnt := s.cnt - bitCount count, rsp := some ⟨false, 0, d⟩ }) ∧
  (∀ (s : State) (p : Nat), s.fault = false → s.cnt = 0 → p < s.len →
    exec .readbit { s with pos := p } = .next { s with
      buf := s.mem.read p
      cnt := 7
      pos := p + 1
      rsp := some ⟨false, 0, if (s.mem.read p).getLsbD 7 then 1 else 0⟩ })

/-- spec/20_memory.md R33 and R34: from an exhausted buffer, 8, 16 and 32 bits are the bytes read as a big-endian
number. -/
def Obligations.BytesReadBigEndian : Prop :=
  ∀ s : State, s.fault = false → s.cnt = 0 →
    (s.pos + 1 ≤ s.len → exec (.readbits 8) s = .next { s with
      buf := s.mem.read s.pos
      pos := s.pos + 1
      rsp := some ⟨false, 0, (s.mem.read s.pos).setWidth 32⟩ }) ∧
    (s.pos + 2 ≤ s.len → exec (.readbits 16) s = .next { s with
      buf := s.mem.read (s.pos + 1)
      pos := s.pos + 2
      rsp := some ⟨false, 0, 0#16 ++ s.mem.read s.pos ++ s.mem.read (s.pos + 1)⟩ }) ∧
    (s.pos + 4 ≤ s.len → exec (.readbits 32) s = .next { s with
      buf := s.mem.read (s.pos + 3)
      pos := s.pos + 4
      rsp := some ⟨false, 0, s.mem.read s.pos ++ s.mem.read (s.pos + 1) ++ s.mem.read (s.pos + 2) ++
        s.mem.read (s.pos + 3)⟩ })

/-- spec/70_reset_and_hazards.md R143 and spec/10_state.md R18, R21: the steps before a session. The source holds the
bytes given, its length is their number, the block's `buf`, `cnt`, FAULT and FCAUSE are at their reset values and the
cursor is where the host put it. The model's choices in it: the three steps of R143 are one move (log entry 8); an
offset beyond the bytes reads as 0 (log entry 2); the response port is cleared (log entry 3); a source of 2^32 bytes
or more, and a cursor outside the source, are refused by name (log entry 8). -/
def Obligations.StartSessionAttachesSource : Prop :=
  ∀ (s : State) (bytes : List Byte) (p : Nat) (rest : List HostEvent),
    s.inputs = .startSession bytes p :: rest →
    (bytes.length < 2 ^ 32 → p ≤ bytes.length →
      ∃ t, step s = .next t ∧ t.len = bytes.length ∧ (∀ a, t.mem.read a = bytes.getD a 0) ∧ t.mem.wf = true ∧
        t.pos = p ∧ t.buf = 0 ∧ t.cnt = 0 ∧ t.fault = false ∧ t.fcause = 0 ∧ t.rsp = none ∧
        t.normOvf = s.normOvf ∧ t.inputs = rest) ∧
    (bytes.length < 2 ^ 32 → bytes.length < p → step s = .refused .posOutsideSource) ∧
    (2 ^ 32 ≤ bytes.length → step s = .refused .sourceTooLong)

/-- spec/70_reset_and_hazards.md R140 and R142: `rst` puts the block at its reset values and does not touch the source
or its cursor. That the response port is cleared too is the model's choice (log entry 3). -/
def Obligations.RstResetsBlockOnly : Prop :=
  ∀ (s : State) (rest : List HostEvent), s.inputs = .rst :: rest →
    step s = .next { s with buf := 0, cnt := 0, fault := false, fcause := 0, rsp := none, inputs := rest }

/-- spec/70_reset_and_hazards.md R140, 'A command in progress when reset is asserted gives no response', and R142: the
block is at its reset values, the source is untouched, and the cursor is not rewound: it has moved by the bytes the
source had given, so where the whole command would end in `u`, it stands at the lesser of `pos + answered` and
`u.pos`. That the bytes already given stay given is read from R142 and R31 (log entry 6); that an EARLIER response is
cleared too is the model's choice (log entry 3), since R140 says only that the aborted command gives none. -/
def Obligations.RstDuringCommand : Prop :=
  ∀ (s : State) (cw : CmdWord) (answered : Nat) (rest : List HostEvent),
    s.inputs = .rstDuring cw answered :: rest →
    ∃ u, step { s with inputs := .command cw :: rest } = .next u ∧ s.pos ≤ u.pos ∧ u.pos ≤ max s.pos s.len ∧
      step s = .next { s with
        buf := 0
        cnt := 0
        fault := false
        fcause := 0
        pos := min (s.pos + answered) u.pos
        rsp := none
        inputs := rest }

/-- spec/93_implementation_defined.md U14, spec/20_memory.md R36 and spec/70_reset_and_hazards.md R152. A READBIT or
READBITS that is not refused makes one request per byte it pulls, and one more when the source runs out under it: it
never completes exactly when the source answers fewer, and otherwise does what it always does. Every other command,
a refused one and an illegal word make no request and complete on a silent source. Four answered requests are enough
for every command. That an end-of-data answer counts as a request, and that a command that never completes is the
model's fault `sourceNeverAnswers`, is the model's reading (log entry 9). -/
def Obligations.SourceThatNeverAnswers : Prop :=
  (∀ (s : State) (cw : CmdWord) (answered needed : Nat) (rest : List HostEvent) (i : Instr),
    s.inputs = .commandStalled cw answered :: rest → decode cw = .legal i →
    (i = .readbit ∨ ∃ count, i = .readbits count) → s.fault = false →
    needed = (if s.cnt + 8 * (s.len - s.pos) < bitsTaken i then (s.len - s.pos) + 1
      else (bitsTaken i - s.cnt + 7) / 8) →
    (answered < needed → step s = .fault .sourceNeverAnswers) ∧
    (needed ≤ answered → step s = exec i { s with inputs := rest })) ∧
  (∀ (s : State) (cw : CmdWord) (answered : Nat) (rest : List HostEvent) (i : Instr),
    s.inputs = .commandStalled cw answered :: rest → decode cw = .legal i →
    (isReader i = false ∨ i = .resetbitbuf ∨ s.fault = true) →
    step s = exec i { s with inputs := rest }) ∧
  (∀ (s : State) (cw : CmdWord) (answered : Nat) (rest : List HostEvent) (why : IllegalWord),
    s.inputs = .commandStalled cw answered :: rest → decode cw = .illegal why →
    step s = step { s with inputs := .command cw :: rest }) ∧
  (∀ (s : State) (cw : CmdWord) (answered : Nat) (rest : List HostEvent),
    s.inputs = .commandStalled cw answered :: rest → 4 ≤ answered →
    step s = step { s with inputs := .command cw :: rest })

/-- spec/30_encoding.md R51 and spec/92_eei_decisions.md D23: with nothing presented the block waits. -/
def Obligations.WaitsWithNothingPresented : Prop :=
  ∀ s : State, s.inputs = [] → step s = .next s

/-- spec/30_encoding.md R58 whole: every command presented is answered by one response; no error has cause 0; an error
has a cause code and data 0; the result's range by command; the 36 bits. -/
def Obligations.EveryCommandAnswered : Prop :=
  (∀ (s : State) (cw : CmdWord) (rest : List HostEvent),
    s.inputs = .command cw :: rest → s.Inv →
    ∃ t r, step s = .next t ∧ t.rsp = some r ∧
      (r.err = false → r.cause = 0) ∧ (r.err = true → (r.cause = 1 ∨ r.cause = 2) ∧ r.data = 0) ∧
      (∀ i, decode cw = .legal i → r.err = false →
        (i = .readbit → r.data.toNat ≤ 1) ∧
        (∀ count, i = .readbits count → r.data.toNat < 2 ^ bitCount count) ∧
        (i = .resetbitbuf → r.data = 0) ∧
        (∀ mask, i = .shiftof mask → r.data.toNat ≤ 31) ∧
        (∀ mask, i = .bitwidthof mask → r.data.toNat ≤ 32) ∧
        (∀ raw mask shift bits, i = .normalize raw mask shift bits → r.data.toNat ≤ 255))) ∧
  (∀ r : Response, r.pack.extractLsb 35 35 = BitVec.ofBool r.err ∧ r.pack.extractLsb 34 32 = r.cause ∧
    r.pack.extractLsb 31 0 = r.data)

/-- spec/42_boundary_usage.md R115: the default masks, the colour masks at every bit depth and alpha only at depth 32,
and what SHIFTOF and BITWIDTHOF answer for them. -/
def Obligations.DefaultMasksShiftAndWidth : Prop :=
  ∀ (s : State) (bitDepth : Nat),
    (defaultMask bitDepth .blue = 0x000000FF ∧ defaultMask bitDepth .green = 0x0000FF00 ∧
      defaultMask bitDepth .red = 0x00FF0000 ∧
      exec (.shiftof (defaultMask bitDepth .blue)) s = .next { s with rsp := some ⟨false, 0, 0⟩ } ∧
      exec (.shiftof (defaultMask bitDepth .green)) s = .next { s with rsp := some ⟨false, 0, 8⟩ } ∧
      exec (.shiftof (defaultMask bitDepth .red)) s = .next { s with rsp := some ⟨false, 0, 16⟩ } ∧
      exec (.bitwidthof (defaultMask bitDepth .blue)) s = .next { s with rsp := some ⟨false, 0, 8⟩ } ∧
      exec (.bitwidthof (defaultMask bitDepth .green)) s = .next { s with rsp := some ⟨false, 0, 8⟩ } ∧
      exec (.bitwidthof (defaultMask bitDepth .red)) s = .next { s with rsp := some ⟨false, 0, 8⟩ }) ∧
    (bitDepth = 32 → defaultMask bitDepth .alpha = 0xFF000000 ∧
      exec (.shiftof (defaultMask bitDepth .alpha)) s = .next { s with rsp := some ⟨false, 0, 24⟩ } ∧
      exec (.bitwidthof (defaultMask bitDepth .alpha)) s = .next { s with rsp := some ⟨false, 0, 8⟩ }) ∧
    (bitDepth ≠ 32 → defaultMask bitDepth .alpha = 0 ∧
      exec (.shiftof (defaultMask bitDepth .alpha)) s = .next { s with rsp := some ⟨false, 0, 0⟩ } ∧
      exec (.bitwidthof (defaultMask bitDepth .alpha)) s = .next { s with rsp := some ⟨false, 0, 0⟩ })
end

