-- ==== Sys2Proof/Laws/State.lean ====
section
/-! SUPPORT. Every field after every update of the state, so that no proof unfolds a record update. -/

namespace Sys2Proof.Machine

variable (s : State)

@[simp] theorem State.recordFault_buf (c : Cause) : (s.recordFault c).buf = s.buf := rfl
@[simp] theorem State.recordFault_cnt (c : Cause) : (s.recordFault c).cnt = s.cnt := rfl
@[simp] theorem State.recordFault_fault (c : Cause) : (s.recordFault c).fault = true := rfl
@[simp] theorem State.recordFault_fcause (c : Cause) : (s.recordFault c).fcause = if s.fault then s.fcause else c.code := rfl
@[simp] theorem State.recordFault_len (c : Cause) : (s.recordFault c).len = s.len := rfl
@[simp] theorem State.recordFault_mem (c : Cause) : (s.recordFault c).mem = s.mem := rfl
@[simp] theorem State.recordFault_pos (c : Cause) : (s.recordFault c).pos = s.pos := rfl
@[simp] theorem State.recordFault_normOvf (c : Cause) : (s.recordFault c).normOvf = s.normOvf := rfl
@[simp] theorem State.recordFault_rsp (c : Cause) : (s.recordFault c).rsp = s.rsp := rfl
@[simp] theorem State.recordFault_inputs (c : Cause) : (s.recordFault c).inputs = s.inputs := rfl

@[simp] theorem State.answer_buf (r : Response) : (s.answer r).buf = s.buf := rfl
@[simp] theorem State.answer_cnt (r : Response) : (s.answer r).cnt = s.cnt := rfl
@[simp] theorem State.answer_fault (r : Response) : (s.answer r).fault = s.fault := rfl
@[simp] theorem State.answer_fcause (r : Response) : (s.answer r).fcause = s.fcause := rfl
@[simp] theorem State.answer_len (r : Response) : (s.answer r).len = s.len := rfl
@[simp] theorem State.answer_mem (r : Response) : (s.answer r).mem = s.mem := rfl
@[simp] theorem State.answer_pos (r : Response) : (s.answer r).pos = s.pos := rfl
@[simp] theorem State.answer_normOvf (r : Response) : (s.answer r).normOvf = s.normOvf := rfl
@[simp] theorem State.answer_rsp (r : Response) : (s.answer r).rsp = some r := rfl
@[simp] theorem State.answer_inputs (r : Response) : (s.answer r).inputs = s.inputs := rfl

@[simp] theorem State.placePos_buf (p : Nat) : (s.placePos p).buf = s.buf := rfl
@[simp] theorem State.placePos_cnt (p : Nat) : (s.placePos p).cnt = s.cnt := rfl
@[simp] theorem State.placePos_fault (p : Nat) : (s.placePos p).fault = s.fault := rfl
@[simp] theorem State.placePos_fcause (p : Nat) : (s.placePos p).fcause = s.fcause := rfl
@[simp] theorem State.placePos_len (p : Nat) : (s.placePos p).len = s.len := rfl
@[simp] theorem State.placePos_mem (p : Nat) : (s.placePos p).mem = s.mem := rfl
@[simp] theorem State.placePos_pos (p : Nat) : (s.placePos p).pos = p := rfl
@[simp] theorem State.placePos_normOvf (p : Nat) : (s.placePos p).normOvf = s.normOvf := rfl
@[simp] theorem State.placePos_rsp (p : Nat) : (s.placePos p).rsp = s.rsp := rfl
@[simp] theorem State.placePos_inputs (p : Nat) : (s.placePos p).inputs = s.inputs := rfl

@[simp] theorem State.loadBuffer_buf (b : Byte) : (s.loadBuffer b).buf = b := rfl
@[simp] theorem State.loadBuffer_cnt (b : Byte) : (s.loadBuffer b).cnt = 8 := rfl
@[simp] theorem State.loadBuffer_fault (b : Byte) : (s.loadBuffer b).fault = s.fault := rfl
@[simp] theorem State.loadBuffer_fcause (b : Byte) : (s.loadBuffer b).fcause = s.fcause := rfl
@[simp] theorem State.loadBuffer_len (b : Byte) : (s.loadBuffer b).len = s.len := rfl
@[simp] theorem State.loadBuffer_mem (b : Byte) : (s.loadBuffer b).mem = s.mem := rfl
@[simp] theorem State.loadBuffer_pos (b : Byte) : (s.loadBuffer b).pos = s.pos := rfl
@[simp] theorem State.loadBuffer_normOvf (b : Byte) : (s.loadBuffer b).normOvf = s.normOvf := rfl
@[simp] theorem State.loadBuffer_rsp (b : Byte) : (s.loadBuffer b).rsp = s.rsp := rfl
@[simp] theorem State.loadBuffer_inputs (b : Byte) : (s.loadBuffer b).inputs = s.inputs := rfl

@[simp] theorem State.dropBit_buf : s.dropBit.buf = s.buf := rfl
@[simp] theorem State.dropBit_cnt : s.dropBit.cnt = s.cnt - 1 := rfl
@[simp] theorem State.dropBit_fault : s.dropBit.fault = s.fault := rfl
@[simp] theorem State.dropBit_fcause : s.dropBit.fcause = s.fcause := rfl
@[simp] theorem State.dropBit_len : s.dropBit.len = s.len := rfl
@[simp] theorem State.dropBit_mem : s.dropBit.mem = s.mem := rfl
@[simp] theorem State.dropBit_pos : s.dropBit.pos = s.pos := rfl
@[simp] theorem State.dropBit_normOvf : s.dropBit.normOvf = s.normOvf := rfl
@[simp] theorem State.dropBit_rsp : s.dropBit.rsp = s.rsp := rfl
@[simp] theorem State.dropBit_inputs : s.dropBit.inputs = s.inputs := rfl

@[simp] theorem State.emptyBuffer_buf : s.emptyBuffer.buf = s.buf := rfl
@[simp] theorem State.emptyBuffer_cnt : s.emptyBuffer.cnt = 0 := rfl
@[simp] theorem State.emptyBuffer_fault : s.emptyBuffer.fault = s.fault := rfl
@[simp] theorem State.emptyBuffer_fcause : s.emptyBuffer.fcause = s.fcause := rfl
@[simp] theorem State.emptyBuffer_len : s.emptyBuffer.len = s.len := rfl
@[simp] theorem State.emptyBuffer_mem : s.emptyBuffer.mem = s.mem := rfl
@[simp] theorem State.emptyBuffer_pos : s.emptyBuffer.pos = s.pos := rfl
@[simp] theorem State.emptyBuffer_normOvf : s.emptyBuffer.normOvf = s.normOvf := rfl
@[simp] theorem State.emptyBuffer_rsp : s.emptyBuffer.rsp = s.rsp := rfl
@[simp] theorem State.emptyBuffer_inputs : s.emptyBuffer.inputs = s.inputs := rfl

@[simp] theorem State.blockReset_buf : s.blockReset.buf = 0 := rfl
@[simp] theorem State.blockReset_cnt : s.blockReset.cnt = 0 := rfl
@[simp] theorem State.blockReset_fault : s.blockReset.fault = false := rfl
@[simp] theorem State.blockReset_fcause : s.blockReset.fcause = 0 := rfl
@[simp] theorem State.blockReset_len : s.blockReset.len = s.len := rfl
@[simp] theorem State.blockReset_mem : s.blockReset.mem = s.mem := rfl
@[simp] theorem State.blockReset_pos : s.blockReset.pos = s.pos := rfl
@[simp] theorem State.blockReset_normOvf : s.blockReset.normOvf = s.normOvf := rfl
@[simp] theorem State.blockReset_rsp : s.blockReset.rsp = none := rfl
@[simp] theorem State.blockReset_inputs : s.blockReset.inputs = s.inputs := rfl

@[simp] theorem State.attach_buf (bytes : List Byte) : (s.attach bytes).buf = s.buf := rfl
@[simp] theorem State.attach_cnt (bytes : List Byte) : (s.attach bytes).cnt = s.cnt := rfl
@[simp] theorem State.attach_fault (bytes : List Byte) : (s.attach bytes).fault = s.fault := rfl
@[simp] theorem State.attach_fcause (bytes : List Byte) : (s.attach bytes).fcause = s.fcause := rfl
@[simp] theorem State.attach_len (bytes : List Byte) : (s.attach bytes).len = bytes.length := rfl
@[simp] theorem State.attach_mem (bytes : List Byte) : (s.attach bytes).mem = Memory.ofBytes 0 bytes := rfl
@[simp] theorem State.attach_pos (bytes : List Byte) : (s.attach bytes).pos = s.pos := rfl
@[simp] theorem State.attach_normOvf (bytes : List Byte) : (s.attach bytes).normOvf = s.normOvf := rfl
@[simp] theorem State.attach_rsp (bytes : List Byte) : (s.attach bytes).rsp = s.rsp := rfl
@[simp] theorem State.attach_inputs (bytes : List Byte) : (s.attach bytes).inputs = s.inputs := rfl

@[simp] theorem State.setInputs_buf (es : List HostEvent) : (s.setInputs es).buf = s.buf := rfl
@[simp] theorem State.setInputs_cnt (es : List HostEvent) : (s.setInputs es).cnt = s.cnt := rfl
@[simp] theorem State.setInputs_fault (es : List HostEvent) : (s.setInputs es).fault = s.fault := rfl
@[simp] theorem State.setInputs_fcause (es : List HostEvent) : (s.setInputs es).fcause = s.fcause := rfl
@[simp] theorem State.setInputs_len (es : List HostEvent) : (s.setInputs es).len = s.len := rfl
@[simp] theorem State.setInputs_mem (es : List HostEvent) : (s.setInputs es).mem = s.mem := rfl
@[simp] theorem State.setInputs_pos (es : List HostEvent) : (s.setInputs es).pos = s.pos := rfl
@[simp] theorem State.setInputs_normOvf (es : List HostEvent) : (s.setInputs es).normOvf = s.normOvf := rfl
@[simp] theorem State.setInputs_rsp (es : List HostEvent) : (s.setInputs es).rsp = s.rsp := rfl
@[simp] theorem State.setInputs_inputs (es : List HostEvent) : (s.setInputs es).inputs = es := rfl

@[simp] theorem takeFault_buf (c : Cause) : (takeFault c s).buf = s.buf := rfl
@[simp] theorem takeFault_cnt (c : Cause) : (takeFault c s).cnt = s.cnt := rfl
@[simp] theorem takeFault_fault (c : Cause) : (takeFault c s).fault = true := rfl
@[simp] theorem takeFault_fcause (c : Cause) : (takeFault c s).fcause = if s.fault then s.fcause else c.code := rfl
@[simp] theorem takeFault_len (c : Cause) : (takeFault c s).len = s.len := rfl
@[simp] theorem takeFault_mem (c : Cause) : (takeFault c s).mem = s.mem := rfl
@[simp] theorem takeFault_pos (c : Cause) : (takeFault c s).pos = s.pos := rfl
@[simp] theorem takeFault_normOvf (c : Cause) : (takeFault c s).normOvf = s.normOvf := rfl
@[simp] theorem takeFault_rsp (c : Cause) : (takeFault c s).rsp = some (.error c.code) := rfl
@[simp] theorem takeFault_inputs (c : Cause) : (takeFault c s).inputs = s.inputs := rfl

@[simp] theorem State.afterBits_buf (n : Nat) : (s.afterBits n).buf = if s.pulls n = 0 then s.buf else s.mem.read (s.pos + s.pulls n - 1) := rfl
@[simp] theorem State.afterBits_cnt (n : Nat) : (s.afterBits n).cnt = s.cnt + 8 * s.pulls n - n := rfl
@[simp] theorem State.afterBits_fault (n : Nat) : (s.afterBits n).fault = s.fault := rfl
@[simp] theorem State.afterBits_fcause (n : Nat) : (s.afterBits n).fcause = s.fcause := rfl
@[simp] theorem State.afterBits_len (n : Nat) : (s.afterBits n).len = s.len := rfl
@[simp] theorem State.afterBits_mem (n : Nat) : (s.afterBits n).mem = s.mem := rfl
@[simp] theorem State.afterBits_pos (n : Nat) : (s.afterBits n).pos = s.pos + s.pulls n := rfl
@[simp] theorem State.afterBits_normOvf (n : Nat) : (s.afterBits n).normOvf = s.normOvf := rfl
@[simp] theorem State.afterBits_rsp (n : Nat) : (s.afterBits n).rsp = s.rsp := rfl
@[simp] theorem State.afterBits_inputs (n : Nat) : (s.afterBits n).inputs = s.inputs := rfl

@[simp] theorem State.drained_buf : s.drained.buf = if s.pos < s.len then s.mem.read (s.len - 1) else s.buf := rfl
@[simp] theorem State.drained_cnt : s.drained.cnt = 0 := rfl
@[simp] theorem State.drained_fault : s.drained.fault = s.fault := rfl
@[simp] theorem State.drained_fcause : s.drained.fcause = s.fcause := rfl
@[simp] theorem State.drained_len : s.drained.len = s.len := rfl
@[simp] theorem State.drained_mem : s.drained.mem = s.mem := rfl
@[simp] theorem State.drained_pos : s.drained.pos = max s.pos s.len := rfl
@[simp] theorem State.drained_normOvf : s.drained.normOvf = s.normOvf := rfl
@[simp] theorem State.drained_rsp : s.drained.rsp = s.rsp := rfl
@[simp] theorem State.drained_inputs : s.drained.inputs = s.inputs := rfl

/-- Two states with equal fields are equal. -/
theorem State.eq_of_fields {s t : State} (h1 : s.buf = t.buf) (h2 : s.cnt = t.cnt) (h3 : s.fault = t.fault)
    (h4 : s.fcause = t.fcause) (h5 : s.len = t.len) (h6 : s.mem = t.mem) (h7 : s.pos = t.pos)
    (h8 : s.normOvf = t.normOvf) (h9 : s.rsp = t.rsp) (h10 : s.inputs = t.inputs) : s = t := by
  cases s; cases t; simp_all

end Sys2Proof.Machine
end

