-- ==== Sys2Proof/Laws/Memory.lean ====
section
/-! SUPPORT. The content of the byte source: the one operation that makes a memory keeps the canonical form and
holds the bytes it was given; reset memory is canonical. -/

namespace Sys2Proof.Machine

theorem Memory.wfFrom_mono {lo lo' : Nat} (h : lo ≤ lo') {m : Memory} (hm : m.wfFrom lo' = true) :
    m.wfFrom lo = true := by
  cases m with
  | nil => rfl
  | cons c rest =>
    simp only [Memory.wfFrom, Bool.and_eq_true, decide_eq_true_eq] at hm ⊢
    exact ⟨⟨by omega, hm.1.2⟩, hm.2⟩

/-- Every offset listed is at least the lower bound of the canonical form. -/
theorem Memory.le_of_wfFrom {m : Memory} : ∀ {lo : Nat}, m.wfFrom lo = true → ∀ c ∈ m, lo ≤ c.1 := by
  induction m with
  | nil => simp
  | cons d rest ih =>
    intro lo h c hc
    simp only [Memory.wfFrom, Bool.and_eq_true, decide_eq_true_eq] at h
    rcases List.mem_cons.1 hc with rfl | hc
    · exact h.1.1
    · have := ih h.2 c hc; omega

/-- An offset below every listed one reads as an unlisted one. -/
theorem Memory.read_below {m : Memory} : ∀ {lo : Nat}, m.wfFrom lo = true → ∀ {a : Nat}, a < lo →
    m.read a = 0 := by
  induction m with
  | nil => intros; rfl
  | cons c rest ih =>
    intro lo h a ha
    simp only [Memory.wfFrom, Bool.and_eq_true, decide_eq_true_eq] at h
    rw [Memory.read, if_neg (by omega)]
    exact ih h.2 (by omega)

theorem Memory.wfFrom_ofBytes (bytes : List Byte) : ∀ base, (Memory.ofBytes base bytes).wfFrom base = true := by
  induction bytes with
  | nil => intro base; rfl
  | cons b rest ih =>
    intro base
    rw [Memory.ofBytes]
    split
    · exact Memory.wfFrom_mono (Nat.le_succ _) (ih _)
    · rename_i hb
      simp only [Memory.wfFrom, Bool.and_eq_true, decide_eq_true_eq]
      exact ⟨⟨le_refl _, hb⟩, ih _⟩

/-- Attaching a source gives a canonical memory. -/
theorem Memory.wf_ofBytes (bytes : List Byte) : (Memory.ofBytes 0 bytes).wf = true :=
  Memory.wfFrom_ofBytes bytes 0

theorem Memory.ofBytes_inside (bytes : List Byte) : ∀ base, ∀ c ∈ Memory.ofBytes base bytes,
    c.1 < base + bytes.length := by
  induction bytes with
  | nil => intro base c hc; simp [Memory.ofBytes] at hc
  | cons b rest ih =>
    intro base c hc
    rw [Memory.ofBytes] at hc
    simp only [List.length_cons]
    split at hc
    · have := ih _ c hc; omega
    · rcases List.mem_cons.1 hc with rfl | hc
      · simp
      · have := ih _ c hc; omega

/-- An attached source holds the bytes it was given, each at its offset. -/
theorem Memory.read_ofBytes (bytes : List Byte) : ∀ base i, i < bytes.length →
    (Memory.ofBytes base bytes).read (base + i) = bytes.getD i 0 := by
  induction bytes with
  | nil => intro base i hi; simp at hi
  | cons b rest ih =>
    intro base i hi
    rw [Memory.ofBytes]
    cases i with
    | zero =>
      split
      · rename_i hb
        rw [hb]
        exact Memory.read_below (Memory.wfFrom_ofBytes rest (base + 1)) (by omega)
      · simp [Memory.read]
    | succ j =>
      have h := ih (base + 1) j (by simpa using hi)
      rw [show base + 1 + j = base + (j + 1) by omega] at h
      split
      · simpa using h
      · rw [Memory.read, if_neg (by simp)]
        simpa using h

/-- Two canonical memories that read alike at every offset are the same list. -/
theorem Memory.ext_of_read : ∀ {m n : Memory} {lo : Nat}, m.wfFrom lo = true → n.wfFrom lo = true →
    (∀ a, m.read a = n.read a) → m = n := by
  intro m
  induction m with
  | nil =>
    intro n lo _ hn h
    cases n with
    | nil => rfl
    | cons c rest =>
      simp only [Memory.wfFrom, Bool.and_eq_true, decide_eq_true_eq] at hn
      have := h c.1
      simp [Memory.read] at this
      exact absurd this.symm hn.1.2
  | cons c rest ih =>
    intro n lo hm hn h
    simp only [Memory.wfFrom, Bool.and_eq_true, decide_eq_true_eq] at hm
    cases n with
    | nil =>
      have := h c.1
      simp [Memory.read] at this
      exact absurd this hm.1.2
    | cons d rest' =>
      simp only [Memory.wfFrom, Bool.and_eq_true, decide_eq_true_eq] at hn
      have hcd : c.1 = d.1 := by
        by_contra hne
        rcases Nat.lt_or_gt_of_ne hne with hlt | hlt
        · have := h c.1
          rw [Memory.read, if_pos rfl, Memory.read, if_neg (by omega),
            Memory.read_below hn.2 (by omega)] at this
          exact hm.1.2 this
        · have := h d.1
          rw [Memory.read, if_neg (by omega), Memory.read_below hm.2 (by omega), Memory.read, if_pos rfl] at this
          exact hn.1.2 this.symm
      have hv : c.2 = d.2 := by
        have := h c.1
        rwa [Memory.read, if_pos rfl, Memory.read, if_pos hcd.symm] at this
      have hrest : rest = rest' := by
        refine ih (lo := c.1 + 1) hm.2 (by rw [hcd]; exact hn.2) fun a => ?_
        by_cases ha : a = c.1
        · subst ha
          rw [Memory.read_below hm.2 (by omega), Memory.read_below hn.2 (by omega)]
        · have := h a
          rwa [Memory.read, if_neg (Ne.symm ha), Memory.read, if_neg (by rw [← hcd]; exact Ne.symm ha)] at this
      rw [hrest, Prod.ext hcd hv]

/-- The memory after reset is canonical. -/
theorem Memory.wf_reset : State.reset.mem.wf = true := rfl

end Sys2Proof.Machine
end

