-- ==== Sys2Proof/Laws/Ops.lean ====
section
/-! SUPPORT. One lemma per shared operation that says once everything it can do: SrcNext (R31), NextBit (R70),
the READBITS loop (R72), the fault gate (R74), the end of a command (R58, R124). -/

namespace Sys2Proof.Machine

theorem srcNext_of_lt {s : State} (h : s.pos < s.len) :
    srcNext s = .value (s.mem.read s.pos) (s.placePos (s.pos + 1)) := by
  rw [srcNext, if_neg (by omega)]

theorem srcNext_of_exhausted {s : State} (h : s.len ≤ s.pos) :
    srcNext s = .raised .unexpectedEndOfData s := by
  rw [srcNext, if_pos h]

theorem gated_of_fault {s : State} (h : s.fault = true) (body) :
    gated s body = .next (s.answer (.error s.fcause)) := by
  rw [gated, if_pos h]

theorem gated_of_no_fault {s : State} (h : s.fault = false) (body) : gated s body = body := by
  rw [gated, if_neg (by simp [h])]

theorem State.pulls_one_of_pos {s : State} (h : 0 < s.cnt) : s.pulls 1 = 0 := by
  unfold State.pulls; omega

theorem State.pulls_one_of_zero {s : State} (h : s.cnt = 0) : s.pulls 1 = 1 := by
  unfold State.pulls; omega

/-- NextBit with a bit to give: the first pending bit, and one bit taken. -/
theorem nextBit_value {s : State} (h : 1 ≤ s.bitsLeft) :
    nextBit s = .value (s.pendingBit 0) (s.afterBits 1) := by
  unfold State.bitsLeft at h
  rcases Nat.eq_zero_or_pos s.cnt with h0 | h0
  · have hlt : s.pos < s.len := by omega
    have hp := State.pulls_one_of_zero h0
    simp only [nextBit, fillBuffer, h0, if_pos, srcNext_of_lt hlt, State.pendingBit]
    congr 1
    apply State.eq_of_fields <;> simp [hp, h0]
  · have hp := State.pulls_one_of_pos h0
    simp only [nextBit, fillBuffer, if_neg (Nat.pos_iff_ne_zero.1 h0), State.pendingBit, if_pos h0]
    congr 1
    apply State.eq_of_fields <;> simp [hp]

/-- NextBit with no bit to give raises and changes nothing (R70). -/
theorem nextBit_raised {s : State} (h : s.bitsLeft = 0) :
    nextBit s = .raised .unexpectedEndOfData s := by
  unfold State.bitsLeft at h
  have h0 : s.cnt = 0 := by omega
  simp [nextBit, fillBuffer, h0, srcNext_of_exhausted (show s.len ≤ s.pos by omega)]

theorem State.bitsLeft_afterBits_one {s : State} (h : 1 ≤ s.bitsLeft) :
    (s.afterBits 1).bitsLeft = s.bitsLeft - 1 := by
  unfold State.bitsLeft at *
  rcases Nat.eq_zero_or_pos s.cnt with h0 | h0
  · simp only [State.afterBits_cnt, State.afterBits_len, State.afterBits_pos, State.pulls_one_of_zero h0]; omega
  · simp only [State.afterBits_cnt, State.afterBits_len, State.afterBits_pos, State.pulls_one_of_pos h0]; omega

theorem State.pulls_afterBits_one (s : State) (n : Nat) :
    s.pulls 1 + (s.afterBits 1).pulls n = s.pulls (n + 1) := by
  rcases Nat.eq_zero_or_pos s.cnt with h0 | h0
  · have := State.pulls_one_of_zero h0
    simp only [State.pulls, State.afterBits_cnt] at *; omega
  · have := State.pulls_one_of_pos h0
    simp only [State.pulls, State.afterBits_cnt] at *; omega

/-- Taking one bit and then `n` is taking `n + 1`. -/
theorem State.afterBits_afterBits_one (s : State) (n : Nat) :
    (s.afterBits 1).afterBits n = s.afterBits (n + 1) := by
  have hp := s.pulls_afterBits_one n
  rcases Nat.eq_zero_or_pos s.cnt with h0 | h0
  · have h1 := State.pulls_one_of_zero h0
    apply State.eq_of_fields <;> simp only [State.afterBits_buf, State.afterBits_cnt, State.afterBits_fault,
      State.afterBits_fcause, State.afterBits_len, State.afterBits_mem, State.afterBits_pos, State.afterBits_normOvf,
      State.afterBits_rsp, State.afterBits_inputs]
    · by_cases hn : (s.afterBits 1).pulls n = 0
      · rw [if_pos hn, if_neg (by omega), if_neg (by omega)]; congr 1; omega
      · rw [if_neg hn, if_neg (by omega)]; congr 1; omega
    · omega
    · omega
  · have h1 := State.pulls_one_of_pos h0
    apply State.eq_of_fields <;> simp only [State.afterBits_buf, State.afterBits_cnt, State.afterBits_fault,
      State.afterBits_fcause, State.afterBits_len, State.afterBits_mem, State.afterBits_pos, State.afterBits_normOvf,
      State.afterBits_rsp, State.afterBits_inputs]
    · by_cases hn : (s.afterBits 1).pulls n = 0
      · rw [if_pos hn, if_pos h1, if_pos (by omega)]
      · rw [if_neg hn, if_neg (by omega)]; congr 1; omega
    · omega
    · omega

/-- The bits still to come after one bit are the same bits, one place on. -/
theorem State.pendingBit_afterBits_one (s : State) (i : Nat) :
    (s.afterBits 1).pendingBit i = s.pendingBit (i + 1) := by
  rcases Nat.eq_zero_or_pos s.cnt with h0 | h0
  · have h1 := State.pulls_one_of_zero h0
    simp only [State.pendingBit, State.afterBits_buf, State.afterBits_cnt, State.afterBits_mem, State.afterBits_pos,
      h1, h0]
    by_cases hi : i < 7
    · rw [if_pos (by omega), if_neg (by omega)]
      congr 1
      · simp only [Nat.add_sub_cancel]
        congr 1; omega
      · omega
    · rw [if_neg (by omega), if_neg (by omega)]
      congr 2 <;> omega
  · have h1 := State.pulls_one_of_pos h0
    simp only [State.pendingBit, State.afterBits_buf, State.afterBits_cnt, State.afterBits_mem, State.afterBits_pos,
      h1, if_pos]
    by_cases hi : i + 1 < s.cnt
    · rw [if_pos (by omega), if_pos hi]
      congr 1; omega
    · rw [if_neg (by omega), if_neg hi]
      congr 2 <;> omega

/-- The value of `n + 1` pending bits, split at the first bit. -/
theorem State.pendingValue_succ_front (s : State) (n : Nat) :
    s.pendingValue (n + 1) = (s.pendingBit 0).toNat * 2 ^ n + (s.afterBits 1).pendingValue n := by
  induction n with
  | zero => simp [State.pendingValue]
  | succ n ih =>
    rw [State.pendingValue, ih, State.pendingValue, State.pendingBit_afterBits_one, pow_succ]
    ring

theorem State.pendingValue_lt (s : State) (n : Nat) : s.pendingValue n < 2 ^ n := by
  induction n with
  | zero => simp [State.pendingValue]
  | succ n ih =>
    have := Bool.toNat_le (s.pendingBit n)
    rw [State.pendingValue, pow_succ]; omega

/-- Shifting one bit into the accumulator, as a number. -/
theorem shiftIn_toNat (acc : Word) (b : Bool) (h : acc.toNat < 2 ^ 31) :
    ((acc <<< 1) ||| bitWord b).toNat = 2 * acc.toNat + b.toNat := by
  have h1 : (acc <<< 1).toNat = 2 * acc.toNat := by
    rw [BitVec.toNat_shiftLeft, Nat.shiftLeft_eq, Nat.mod_eq_of_lt (by omega)]; omega
  cases b with
  | false => simp [bitWord, h1]
  | true =>
    rw [BitVec.toNat_or, h1]
    have := Nat.two_pow_add_eq_or_of_lt (i := 1) (b := 1) (by norm_num) acc.toNat
    simp only [pow_one] at this
    simpa [bitWord] using this.symm

/-- The loop of READBITS with enough bits left: they come out most significant first, none is lost off the top
(R72). -/
theorem takeBits_value (n : Nat) : ∀ (acc : Word) (s : State), acc.toNat * 2 ^ n + 2 ^ n ≤ 2 ^ 32 →
    n ≤ s.bitsLeft →
    takeBits n acc s = .value (BitVec.ofNat 32 (acc.toNat * 2 ^ n + s.pendingValue n)) (s.afterBits n) := by
  induction n with
  | zero =>
    intro acc s _ _
    simp only [takeBits, State.pendingValue, pow_zero, mul_one, add_zero, BitVec.ofNat_toNat, BitVec.setWidth_eq]
    congr 1
    apply State.eq_of_fields <;> simp [State.pulls]
  | succ n ih =>
    intro acc s hacc hn
    rw [takeBits, nextBit_value (by omega)]
    have hpos : 0 < 2 ^ n := Nat.two_pow_pos n
    have hlt : acc.toNat < 2 ^ 31 := by
      by_contra hge
      have : 2 ^ 31 * 2 ^ 1 ≤ acc.toNat * 2 ^ (n + 1) := by
        apply Nat.mul_le_mul (by omega)
        exact Nat.pow_le_pow_right (by norm_num) (by omega)
      have h2 : 0 < 2 ^ (n + 1) := Nat.two_pow_pos _
      omega
    have hb := Bool.toNat_le (s.pendingBit 0)
    have hin := shiftIn_toNat acc (s.pendingBit 0) hlt
    simp only
    rw [ih _ _ ?_ ?_]
    · rw [hin, State.afterBits_afterBits_one, State.pendingValue_succ_front]
      congr 2
      rw [pow_succ]; ring
    · rw [hin, pow_succ] at *
      calc (2 * acc.toNat + (s.pendingBit 0).toNat) * 2 ^ n + 2 ^ n
          ≤ (2 * acc.toNat + 1) * 2 ^ n + 2 ^ n := by gcongr
        _ = acc.toNat * (2 ^ n * 2) + 2 ^ n * 2 := by ring
        _ ≤ 2 ^ 32 := hacc
    · rw [State.bitsLeft_afterBits_one (by omega)]; omega

theorem State.drained_afterBits_one {s : State} (h : 1 ≤ s.bitsLeft) : (s.afterBits 1).drained = s.drained := by
  unfold State.bitsLeft at h
  rcases Nat.eq_zero_or_pos s.cnt with h0 | h0
  · have h1 := State.pulls_one_of_zero h0
    apply State.eq_of_fields <;> simp [h1]
    · by_cases hl : s.pos + 1 < s.len
      · rw [if_pos hl, if_pos (by omega)]
      · rw [if_neg hl, if_pos (by omega)]; congr 1; omega
    · omega
  · have h1 := State.pulls_one_of_pos h0
    apply State.eq_of_fields <;> simp [h1]

theorem State.drained_of_empty {s : State} (h : s.bitsLeft = 0) : s.drained = s := by
  unfold State.bitsLeft at h
  apply State.eq_of_fields <;> simp
  · omega
  · omega
  · omega

/-- The loop of READBITS with too few bits left: every bit is taken, and then it raises (R72, R125). -/
theorem takeBits_raised (n : Nat) : ∀ (acc : Word) (s : State), s.bitsLeft < n →
    takeBits n acc s = .raised .unexpectedEndOfData s.drained := by
  induction n with
  | zero => intro acc s h; omega
  | succ n ih =>
    intro acc s h
    rw [takeBits]
    by_cases h0 : s.bitsLeft = 0
    · rw [nextBit_raised h0, State.drained_of_empty h0]
    · rw [nextBit_value (by omega)]
      simp only
      rw [ih _ _ (by rw [State.bitsLeft_afterBits_one (by omega)]; omega), State.drained_afterBits_one (by omega)]

/-- The clamp of READBITS always gives 1 to 32 (R72). -/
theorem bitCount_range (count : Word) : 1 ≤ bitCount count ∧ bitCount count ≤ 32 := by
  unfold bitCount clamp Config.minCount Config.maxCount
  split
  · simp
  · split
    · simp
    · omega

end Sys2Proof.Machine
end

