-- ==== Sys2Proof/Laws/Command.lean ====
section
/-! SUPPORT. What a command can do to the state, said once: five shapes, and every command ends in a next state. -/

namespace Sys2Proof.Machine

theorem bitWord_eq (b : Bool) : bitWord b = BitVec.ofNat 32 b.toNat := by cases b <;> rfl

/-- The shapes of a command's next state: an answer alone (a codec command, a refused reader command), an emptied
buffer, bits taken, the source exhausted, an illegal command. -/
inductive CommandShape (s t : State) : Prop where
  | answered (r : Response) (h : t = s.answer r)
  | emptied (hf : s.fault = false) (h : t = s.emptyBuffer.answer (.ok 0))
  | took (n : Nat) (hf : s.fault = false) (h1 : 1 ≤ n) (h32 : n ≤ 32) (hn : n ≤ s.bitsLeft)
      (h : t = (s.afterBits n).answer (.ok (BitVec.ofNat 32 (s.pendingValue n))))
  | exhausted (n : Nat) (hf : s.fault = false) (h32 : n ≤ 32) (hn : s.bitsLeft < n)
      (h : t = takeFault .unexpectedEndOfData s.drained)
  | illegal (h : t = takeFault .illegalCommand s)

theorem execReadbit_shape (s : State) : ∃ t, execReadbit s = .next t ∧ CommandShape s t := by
  cases hf : s.fault with
  | true => exact ⟨_, by rw [execReadbit, gated_of_fault hf], .answered _ rfl⟩
  | false =>
    rw [execReadbit, gated_of_no_fault hf]
    by_cases h : s.bitsLeft = 0
    · rw [nextBit_raised h]
      exact ⟨_, rfl, .exhausted 1 hf (by omega) (by omega) (by rw [State.drained_of_empty h])⟩
    · rw [nextBit_value (by omega)]
      exact ⟨_, rfl, .took 1 hf (by omega) (by omega) (by omega) (by simp [bitWord_eq, State.pendingValue])⟩

theorem execReadbits_shape (count : Word) (s : State) :
    ∃ t, execReadbits count s = .next t ∧ CommandShape s t := by
  have hr := bitCount_range count
  cases hf : s.fault with
  | true => exact ⟨_, by rw [execReadbits, gated_of_fault hf], .answered _ rfl⟩
  | false =>
    rw [execReadbits, gated_of_no_fault hf]
    by_cases h : s.bitsLeft < bitCount count
    · rw [takeBits_raised _ _ _ h]
      exact ⟨_, rfl, .exhausted _ hf hr.2 h rfl⟩
    · have hp : 2 ^ bitCount count ≤ 2 ^ 32 := Nat.pow_le_pow_right (by norm_num) hr.2
      rw [takeBits_value _ _ _ (by simpa using hp) (by omega)]
      exact ⟨_, rfl, .took _ hf hr.1 hr.2 (by omega) (by simp)⟩

/-- The requests of bits taken: one per byte pulled (R36). -/
theorem requests_took (s : State) (n : Nat) (r : Response) : requests s ((s.afterBits n).answer r) = s.pulls n := by
  cases hf : s.fault <;> simp [requests, hf]

/-- The requests of a command that ran out: every byte that was left, and the one answered by end of data. -/
theorem requests_exhausted {s : State} (hf : s.fault = false) :
    requests s (takeFault .unexpectedEndOfData s.drained) = (s.len - s.pos) + 1 := by
  simp [requests, hf]; omega

/-- An answer alone makes no request. -/
theorem requests_answered (s : State) (r : Response) : requests s (s.answer r) = 0 := by
  cases hf : s.fault <;> simp [requests, hf]

/-- An emptied buffer makes no request. -/
theorem requests_emptied (s : State) (r : Response) : requests s (s.emptyBuffer.answer r) = 0 := by
  cases hf : s.fault <;> simp [requests, hf]

/-- An illegal command makes no request. -/
theorem requests_illegal (s : State) : requests s (takeFault .illegalCommand s) = 0 := by
  cases hf : s.fault <;> simp [requests, hf, Cause.code]

/-- Every command ends in a next state of one of the five shapes. -/
theorem exec_shape (i : Instr) (s : State) : ∃ t, exec i s = .next t ∧ CommandShape s t := by
  cases i with
  | readbit => exact execReadbit_shape s
  | readbits count => exact execReadbits_shape count s
  | resetbitbuf =>
    cases hf : s.fault with
    | true => exact ⟨_, gated_of_fault hf _, .answered _ rfl⟩
    | false => exact ⟨_, gated_of_no_fault hf _, .emptied hf rfl⟩
  | shiftof mask => exact ⟨_, rfl, .answered _ rfl⟩
  | bitwidthof mask => exact ⟨_, rfl, .answered _ rfl⟩
  | normalize raw mask shift bits =>
    by_cases h : bits.toNat ≤ Config.maxBits
    · exact ⟨_, by rw [exec, execNormalize, if_pos h]; rfl, .answered _ rfl⟩
    · exact ⟨_, by rw [exec, execNormalize, if_neg h]; rfl, .illegal rfl⟩

/-- A command word presented ends in a next state of one of the five shapes. -/
theorem runCommand_shape (cw : CmdWord) (s : State) : ∃ t, runCommand cw s = .next t ∧ CommandShape s t := by
  unfold runCommand
  split
  · exact exec_shape _ s
  · exact ⟨_, rfl, .illegal rfl⟩

end Sys2Proof.Machine
end

