-- ==== Sys2Proof/Laws/PerInstr.lean ====
section
/-! SUPPORT. One lemma per command: the word the encoder writes has the command's `OP` and no reserved bit set
(spec/30_encoding.md R52, R55, R56). -/

namespace Sys2Proof.Laws.OpcodeField

/-- The `OP` field of the word is the command's, and `RSV3`, `RSV2`, `RSV1` are 0. -/
def Statement (i : Instr) : Prop :=
  CmdWord.op (encode i) = opcodeOf i ∧ CmdWord.rsv3 (encode i) = 0 ∧ CmdWord.rsv2 (encode i) = 0 ∧
    CmdWord.rsv1 (encode i) = 0

theorem ofFields_reserved (op : BitVec 4) (s : BitVec 5) (w : BitVec 6) (a b : Word) :
    CmdWord.op (CmdWord.ofFields op s w a b) = op ∧ CmdWord.rsv3 (CmdWord.ofFields op s w a b) = 0 ∧
      CmdWord.rsv2 (CmdWord.ofFields op s w a b) = 0 ∧ CmdWord.rsv1 (CmdWord.ofFields op s w a b) = 0 := by
  refine ⟨?_, ?_, ?_, ?_⟩ <;> ext i hi <;>
    simp only [CmdWord.op, CmdWord.rsv3, CmdWord.rsv2, CmdWord.rsv1, CmdWord.ofFields,
      BitVec.getElem_extractLsb', BitVec.getLsbD_append] <;>
    interval_cases i <;> simp

theorem readbit : Statement .readbit := ofFields_reserved _ _ _ _ _

theorem readbits (count : Word) : Statement (.readbits count) := ofFields_reserved _ _ _ _ _

theorem resetbitbuf : Statement .resetbitbuf := ofFields_reserved _ _ _ _ _

theorem shiftof (mask : Word) : Statement (.shiftof mask) := ofFields_reserved _ _ _ _ _

theorem bitwidthof (mask : Word) : Statement (.bitwidthof mask) := ofFields_reserved _ _ _ _ _

theorem normalize (raw mask : Word) (shift : BitVec 5) (bits : BitVec 6) :
    Statement (.normalize raw mask shift bits) := ofFields_reserved _ _ _ _ _

end Sys2Proof.Laws.OpcodeField
end

