-- ==== Sys2Proof/Machine/Asm.lean ====
section
/-! DEFINITION. The assembler syntax of spec/30_encoding.md R61 (numbers as in spec/00_scope.md R7) and the
pseudo-instructions of R62: one line of text, as a list of characters, to the commands it stands for. -/

namespace Sys2Proof.Machine.Asm

/-- The value of a digit character in a base up to 16. -/
def digit (base : Nat) (c : Char) : Option Nat :=
  let n := c.toNat
  let v := if 48 ≤ n ∧ n ≤ 57 then n - 48 else if 65 ≤ n ∧ n ≤ 70 then n - 55
    else if 97 ≤ n ∧ n ≤ 102 then n - 87 else 16
  if v < base then some v else none

/-- A run of digits after the value `acc`. -/
def digits (base : Nat) (acc : Nat) : List Char → Option Nat
  | [] => some acc
  | c :: rest =>
    match digit base c with
    | some v => digits base (base * acc + v) rest
    | none => none

/-- A number (R7): decimal, or hexadecimal after `0x`, or binary after `0b`. -/
def number : List Char → Option Nat
  | [] => none
  | '0' :: 'x' :: c :: rest => digits 16 0 (c :: rest)
  | '0' :: 'b' :: c :: rest => digits 2 0 (c :: rest)
  | cs => digits 10 0 cs

/-- An integer: a number, or a minus sign and a number (`READBITS -1`, R61). -/
def integer : List Char → Option Int
  | '-' :: cs => (number cs).map fun n => -(n : Int)
  | cs => (number cs).map fun n => (n : Int)

/-- A 32-bit operand, 0 to 0xFFFFFFFF (R61). -/
def word (cs : List Char) : Option Word :=
  match number cs with
  | some n => if n < 2 ^ 32 then some (BitVec.ofNat 32 n) else none
  | none => none

/-- The `count` operand, -2147483648 to 2147483647 (R61). -/
def count (cs : List Char) : Option Word :=
  match integer cs with
  | some n => if -(2 ^ 31) ≤ n ∧ n < 2 ^ 31 then some (BitVec.ofInt 32 n) else none
  | none => none

/-- The text before a comment, which runs from `;` to the end of the line (R61). -/
def uncomment (cs : List Char) : List Char := cs.takeWhile (· ≠ ';')

/-- Words of a line: blanks separate them, and a comma is a word of its own. The first argument is the word
being read, backwards. -/
def tokens (cur : List Char) : List Char → List (List Char)
  | [] => if cur = [] then [] else [cur.reverse]
  | c :: rest =>
    let done := if cur = [] then [] else [cur.reverse]
    if c = ' ' ∨ c = '\t' then done ++ tokens [] rest
    else if c = ',' then done ++ [[',']] ++ tokens [] rest
    else tokens (c :: cur) rest

/-- The operands of a command: separated by single commas (R61). -/
def operands : List (List Char) → Option (List (List Char))
  | [] => some []
  | [x] => if x = [','] then none else some [x]
  | x :: y :: rest =>
    if x = [','] ∨ y ≠ [','] ∨ rest = [] then none
    else (operands rest).map (x :: ·)

/-- NORMALIZE `raw, mask, shift, bits` with shift 0 to 31 and bits 0 to 32 (R61). -/
def normalizeOf (raw mask shift bits : List Char) : Option (List Instr) :=
  match word raw, word mask, number shift, number bits with
  | some r, some m, some s, some w =>
    if s ≤ 31 ∧ w ≤ 32 then some [.normalize r m (BitVec.ofNat 5 s) (BitVec.ofNat 6 w)] else none
  | _, _, _, _ => none

/-- The commands a mnemonic with its operands stands for (R61, R62). -/
def commandOf (mnemonic : List Char) (args : List (List Char)) : Option (List Instr) :=
  if mnemonic = "READBIT".toList then (if args = [] then some [.readbit] else none)
  else if mnemonic = "RESETBITBUF".toList then (if args = [] then some [.resetbitbuf] else none)
  else if mnemonic = "ENDROW".toList then (if args = [] then some pseudoEndrow else none)
  else match args with
  | [x] =>
    if mnemonic = "READBITS".toList then (count x).map fun c => [.readbits c]
    else if mnemonic = "SHIFTOF".toList then (word x).map fun m => [.shiftof m]
    else if mnemonic = "BITWIDTHOF".toList then (word x).map fun m => [.bitwidthof m]
    else if mnemonic = "READPIX".toList then (number x).bind pseudoReadpix
    else none
  | [x, y] =>
    if mnemonic = "CHANNEL".toList then
      (word x).bind fun raw => (word y).map fun mask => pseudoChannel raw mask
    else none
  | [r, m, s, w] => if mnemonic = "NORMALIZE".toList then normalizeOf r m s w else none
  | _ => none

/-- One line of assembler text (R61, R62); an empty line is no command. -/
def assemble (line : List Char) : Option (List Instr) :=
  match tokens [] (uncomment line) with
  | [] => some []
  | m :: rest => (operands rest).bind (commandOf m)

end Sys2Proof.Machine.Asm
end

