-- ==== Sys2Proof/Tests/Slice0.lean ====
section
/-! SUPPORT. Tests. Expected values are those of spec/30_encoding.md R61 and spec/95_test_vectors.md (V<n>, P<n>); each
statement with hypotheses has a witness that meets them. -/

open Sys2Proof Sys2Proof.Machine

namespace Sys2Proof.Tests

/-- A block on a source with this content, in the state `buf/cnt/pos/FAULT/FCAUSE` of spec/95_test_vectors.md. -/
def block (bytes : List Byte) (buf : Byte) (cnt pos : Nat) (fault : Bool) (fcause : BitVec 3) : State :=
  { State.reset.attach bytes with buf := buf, cnt := cnt, pos := pos, fault := fault, fcause := fcause }

/-- What a vector shows of a step: the response, and `buf/cnt/pos/FAULT/FCAUSE` after. -/
abbrev Shown := Option (Option Response × Byte × Nat × Nat × Bool × BitVec 3)

/-- What a vector shows of a step, if it ends in a next state. -/
def shown : Host.Outcome State Fault Refusal → Shown
  | .next t => some (t.rsp, t.buf, t.cnt, t.pos, t.fault, t.fcause)
  | .fault _ => none
  | .refused _ => none

/-- The refusal of a step, if it is one. -/
def refusal : Host.Outcome State Fault Refusal → Option Refusal
  | .refused r => some r
  | .next _ => none
  | .fault _ => none

/-- The fault a step stops with, if it does. -/
def stop : Host.Outcome State Fault Refusal → Option Fault
  | .fault r => some r
  | .next _ => none
  | .refused _ => none

/-- One step with this move of the host next. -/
def after (s : State) (e : HostEvent) : Host.Outcome State Fault Refusal := step (s.setInputs [e])

/-- One step with this command word next, its parts `CTL A B`. -/
def cmd (s : State) (ctl a b : Word) : Shown := shown (after s (.command (cmdOfParts ctl a b)))

/-! WellFormed: the one ill-formed term the check refuses (R57 case 5), and its largest legal neighbour. -/

theorem test_wf_refuses_bits_33 : (Instr.normalize 0 0 0 33).wf = false := by decide
theorem test_wf_takes_bits_32 : (Instr.normalize 0 0 31 32).wf = true := by decide

/-! Decode: words written out from R52, R55 and R61. -/

theorem test_decode_readbit : decode 0x010000000000000000000000 = .legal .readbit := by decide
theorem test_decode_readbits : decode 0x02000000FFFFFFFF00000000 = .legal (.readbits 0xFFFFFFFF) := by decide
theorem test_decode_resetbitbuf : decode 0x030000000000000000000000 = .legal .resetbitbuf := by decide
theorem test_decode_shiftof : decode 0x0400000000FF000000000000 = .legal (.shiftof 0x00FF0000) := by decide
theorem test_decode_bitwidthof : decode 0x05000000000007E000000000 = .legal (.bitwidthof 0x000007E0) := by decide
theorem test_decode_normalize :
    decode 0x0600100800FF0000FFFF0000 = .legal (.normalize 0xFFFF0000 0x00FF0000 16 8) := by decide
/-- V210 to V225: the five cases of R57. -/
theorem test_decode_illegal :
    decode 0 = .illegal .reservedOpcode ∧ decode (cmdOfParts 0x0F000000 0 0) = .illegal .reservedOpcode ∧
    decode (cmdOfParts 0x01000000 1 0) = .illegal .unusedFieldN ∧
    decode (cmdOfParts 0x02000100 4 0) = .illegal .unusedFieldA ∧
    decode (cmdOfParts 0x06000021 0xFF 0xFF) = .illegal .bitsTooLarge ∧
    decode (cmdOfParts 0x06002008 0xFF 0xFF) = .illegal .reservedBits ∧
    decode (cmdOfParts 0x06000048 0xFF 0xFF) = .illegal .reservedBits ∧
    decode (cmdOfParts 0x11000000 0 0) = .illegal .reservedBits := by decide
theorem test_encode_normalize : encode (.normalize 0xFFFF0000 0x00FF0000 16 8) = 0x0600100800FF0000FFFF0000 := by
  decide
theorem test_decodeTableWord : decodeTableWord 96 0x020000000000000400000000 = some (.readbits 4) := by decide

/-! Commands: one step each. -/

/-- V5. -/
theorem test_readbit_pulls :
    cmd (block [0xA5, 0x3C] 0 0 0 false 0) 0x01000000 0 0 = some (some (.ok 1), 0xA5, 7, 1, false, 0) := by decide
/-- V21. -/
theorem test_readbit_exhausted :
    cmd (block [0xA5, 0x3C] 0x3C 0 2 false 0) 0x01000000 0 0 = some (some (.error 1), 0x3C, 0, 2, true, 1) := by decide
/-- V81: a read that straddles two bytes. -/
theorem test_readbits_straddles :
    cmd (block [0xDE, 0xAD, 0xBE] 0xAD 4 2 false 0) 0x02000000 8 0 =
      some (some (.ok 0xDB), 0xBE, 4, 3, false, 0) := by decide
/-- V94: one bit too many; the bits before it stay taken. -/
theorem test_readbits_one_too_many :
    cmd (block [0x12, 0x34] 0x12 5 1 false 0) 0x02000000 14 0 = some (some (.error 1), 0x34, 0, 2, true, 1) := by
  decide
/-- V97. -/
theorem test_resetbitbuf :
    cmd (block [0xE0, 0x80, 1] 0xE0 5 1 false 0) 0x03000000 0 0 = some (some (.ok 0), 0xE0, 0, 1, false, 0) := by
  decide
/-- V239: refused with cause 2 although 7 bits are still held. -/
theorem test_reader_refused :
    cmd (block [0xFF] 0xFF 7 1 true 2) 0x01000000 0 0 = some (some (.error 2), 0xFF, 7, 1, true, 2) := by decide
/-- V112: the largest result. -/
theorem test_shiftof_top :
    cmd State.reset 0x04000000 0x80000000 0 = some (some (.ok 31), 0, 0, 0, false, 0) := by decide
/-- V109. -/
theorem test_shiftof_absent :
    cmd State.reset 0x04000000 0 0 = some (some (.ok 0), 0, 0, 0, false, 0) := by decide
/-- V129: the largest result. -/
theorem test_bitwidthof_full :
    cmd State.reset 0x05000000 0xFFFFFFFF 0 = some (some (.ok 32), 0, 0, 0, false, 0) := by decide
/-- V133: the count of bits, not the span. -/
theorem test_bitwidthof_hole :
    cmd State.reset 0x05000000 5 0 = some (some (.ok 2), 0, 0, 0, false, 0) := by decide
/-- V178: the product is exact. -/
theorem test_normalize_exact_product :
    cmd State.reset 0x06000019 0x01FFFFFF 0x01010102 = some (some (.ok 128), 0, 0, 0, false, 0) := by decide
/-- V200: a mask with a hole; the spec's NORM_OVF. -/
theorem test_normalize_overflow :
    cmd State.reset 0x06000002 5 5 = some (some (.ok 169), 0, 0, 0, false, 0) := by decide
/-- V235: an illegal word while FAULT is 1 answers its own cause and FCAUSE keeps the first. -/
theorem test_illegal_after_fault :
    cmd (block [0xAB] 0xAB 0 1 true 1) 0x09000000 0 0 = some (some (.error 2), 0xAB, 0, 1, true, 1) := by decide

/-! The host's moves. -/

/-- V242 to V243: reset after a fault; the cursor stays. -/
theorem test_rst :
    shown (after (block [0x80, 0x40] 0x80 5 1 true 2) .rst) = some (none, 0, 0, 1, false, 0) := by decide
/-- V108: the cursor moved under a part-used buffer. -/
theorem test_move_under_buffer :
    shown (after (block [0xF0, 0, 0xFF] 0xF0 4 1 false 0) (.movePos 2)) = some (none, 0xF0, 4, 2, false, 0) := by
  decide
/-- V108: READBITS 8 after that move. -/
theorem test_readbits_after_move :
    cmd (block [0xF0, 0, 0xFF] 0xF0 4 2 false 0) 0x02000000 8 0 = some (some (.ok 0x0F), 0xFF, 4, 3, false, 0) := by
  decide
theorem test_move_outside : refusal (after (block [1] 0 0 0 false 0) (.movePos 2)) = some .posOutsideSource := by
  decide
theorem test_start_session :
    shown (after (block [] 7 3 0 true 1) (.startSession [0, 0xA5] 1)) = some (none, 0, 0, 1, false, 0) := by decide
theorem test_source_never_answers :
    stop (after (block [0xA5] 0 0 0 false 0) (.commandStalled (encode .readbit) 0)) = some .sourceNeverAnswers := by
  decide
/-- READBITS 32 with the buffer part-used: two answered requests are not enough (U14). -/
theorem test_source_stops_part_way :
    stop (after (block [1, 2, 3, 4, 5] 1 4 1 false 0) (.commandStalled (encode (.readbits 32)) 2)) =
      some .sourceNeverAnswers := by decide
/-- Two of the four bytes of a READBITS 32 had been given when reset came. -/
theorem test_rst_during :
    shown (after (block [1, 2, 3, 4] 0 0 0 false 0) (.rstDuring (encode (.readbits 32)) 2)) =
      some (none, 0, 0, 2, false, 0) := by decide
theorem test_withFetchWord :
    shown (step (State.reset.withFetchWord 96 0x040000000000F80000000000)) =
      some (some (.ok 11), 0, 0, 0, false, 0) := by decide

/-! Memory keeps its canonical form (a zero byte is not listed), and the response's 36 bits (R58). -/

theorem test_ofBytes : Memory.ofBytes 0 [0x12, 0, 0x34] = [(0, 0x12), (2, 0x34)] := by decide
theorem test_pack : (Response.error 2).pack = 0xA00000000 ∧ (Response.ok 0xDEADBEEF).pack = 0x0DEADBEEF := by decide

/-! The host's use (P1, P6) and the assembler (R61, R62). -/

theorem test_row_padding : rowBytes 3 4 = 2 ∧ rowPadding 3 4 = 2 := by decide
theorem test_leWord : leWord [0x10, 0x84] = 0x8410 := by decide
theorem test_assemble_count : Asm.assemble "READBITS -1 ; x".toList = some [.readbits 0xFFFFFFFF] := by decide
theorem test_assemble_pseudo :
    Asm.assemble "ENDROW".toList = some [.resetbitbuf] ∧ Asm.assemble "READPIX 4".toList = some [.readbits 4] ∧
    Asm.assemble "READPIX 3".toList = none := by decide
theorem test_assemble_channel :
    Asm.assemble "CHANNEL 5,0xF0".toList = some [.shiftof 0xF0, .bitwidthof 0xF0, .normalize 5 0xF0 4 4] := by decide

/-! Witnesses: concrete states and operands that meet the hypotheses of each statement. -/

/-- Nothing held, three bytes to come. -/
def fresh : State := block [0xE0, 0x80, 1] 0 0 0 false 0
/-- Seven bits held. -/
def held : State := block [0xA5, 0x3C] 0xA5 7 1 false 0
/-- Nothing held, nothing to come. -/
def ended : State := block [0xA5, 0x3C] 0x3C 0 2 false 0
/-- A fault recorded. -/
def faulted : State := block [0xA5, 0x3C] 0x3C 0 2 true 1

theorem inv_of {s : State} (hm : s.mem.wf = true) (hi : s.mem.all (fun c => decide (c.1 < s.len)) = true)
    (h : s.cnt ≤ 7 ∧ (s.fault = false ↔ s.fcause = 0) ∧ s.fcause.toNat ≤ 2 ∧ s.pos ≤ s.len ∧
      s.len < Config.sourceLimit) : s.Inv :=
  ⟨h.1, h.2.1, h.2.2.1, h.2.2.2.1, h.2.2.2.2, hm, by simpa using hi⟩

theorem held_inv : (held.setInputs [.command (encode .readbit)]).Inv :=
  inv_of (by decide) (by decide) (by decide)
theorem faulted_inv : (faulted.setInputs [.command (encode .readbit)]).Inv :=
  inv_of (by decide) (by decide) (by decide)
theorem held_synced : held.Synced := ⟨by decide, by decide, by decide⟩
theorem ended_synced : ended.Synced := ⟨by decide, by decide, by decide⟩

theorem witness_StepRunsDecodedCommand :
    (held.setInputs [.command (encode (.readbits 4))]).inputs = [.command (encode (.readbits 4))] ∧
    decode (encode (.readbits 4)) = .legal (.readbits 4) := by decide
theorem witness_IllegalWordsRaiseIllegalCommand :
    (held.setInputs [.command 0]).inputs = [.command 0] ∧ decode 0 = .illegal .reservedOpcode := by decide
theorem witness_ChecksMadeInOrder :
    (faulted.setInputs [.command 0]).inputs = [.command 0] ∧ decode 0 = .illegal .reservedOpcode ∧
    decode (encode .readbit) = .legal .readbit ∧ isReader .readbit = true ∧ faulted.fault = true ∧
    decode (encode (.shiftof 7)) = .legal (.shiftof 7) ∧ isReader (.shiftof 7) = false ∧ held.fault = false := by
  decide
theorem witness_DecodeEncodeAgree :
    (Instr.normalize 1 2 31 32).wf = true ∧ decode (encode (.normalize 1 2 31 32)) = .legal (.normalize 1 2 31 32) := by
  decide
theorem witness_TableRowSelectsCommand :
    (⟨1, 0x010000000000000000000000, 0xFFFFFFFFFFFFFFFFFFFFFFFF⟩ : OpcodeRow) ∈ opcodeTable ∧
    (⟨1, 0x010000000000000000000000, 0xFFFFFFFFFFFFFFFFFFFFFFFF⟩ : OpcodeRow).selects (encode .readbit) = true := by
  decide
theorem witness_ReadbitResult :
    (held.fault = false ∧ 0 < held.cnt) ∧ (fresh.fault = false ∧ fresh.cnt = 0 ∧ fresh.pos < fresh.len) ∧
    (ended.fault = false ∧ ended.cnt = 0 ∧ ended.len ≤ ended.pos) ∧ faulted.fault = true := by decide
/-- 15 bits are left: 15 can be read, 16 cannot. -/
theorem witness_ReadbitsResult :
    (held.fault = false ∧ bitCount 15 ≤ held.cnt + 8 * (held.len - held.pos)) ∧
    (held.fault = false ∧ held.cnt + 8 * (held.len - held.pos) < bitCount 16) ∧ faulted.fault = true ∧
    (0 : Word).toInt < 1 ∧ (1 ≤ (32 : Word).toInt ∧ (32 : Word).toInt ≤ 32) ∧ 32 < (33 : Word).toInt := by decide
theorem witness_ResetbitbufResult : held.fault = false ∧ faulted.fault = true := by decide
theorem witness_FaultGateStopsReaderOnly :
    faulted.fault = true ∧ Instr.readbit.wf = true ∧ isReader .readbit = true ∧
    (Instr.shiftof 5).wf = true ∧ isReader (.shiftof 5) = false := by decide
theorem witness_ShiftofResult : (0x80000000 : Word) ≠ 0 ∧ (0 : Word) = 0 := by decide
theorem witness_BitwidthofResult : 1 ≤ 1 ∧ 31 + 1 ≤ 32 := by decide
/-- V200 overflows, V202 does not. -/
theorem witness_NormalizeResult :
    (2 : BitVec 6).toNat ≤ 32 ∧ (2 : BitVec 6).toNat ≠ 0 ∧ (0 : BitVec 6).toNat = 0 ∧
    (1 &&& 5 : Word).toNat / 2 ^ (0 : BitVec 5).toNat * 255 / (2 ^ (2 : BitVec 6).toNat - 1) ≤ 255 ∧
    255 < (5 &&& 5 : Word).toNat / 2 ^ (0 : BitVec 5).toNat * 255 / (2 ^ (2 : BitVec 6).toNat - 1) ∧
    State.reset.normOvf = .truncate := by decide
/-- V203 and V205: one quotient, 4335, from two sets of operands. -/
theorem witness_NormalizeOverflowByQuotientOnly :
    held.normOvf = faulted.normOvf ∧ 1 ≤ (4 : BitVec 6).toNat ∧ (4 : BitVec 6).toNat ≤ 32 ∧
    4335 = (0xFF &&& 0xFF : Word).toNat / 2 ^ (0 : BitVec 5).toNat * 255 / (2 ^ (4 : BitVec 6).toNat - 1) ∧
    4335 = (0xFF00 &&& 0xFF00 : Word).toNat / 2 ^ (8 : BitVec 5).toNat * 255 / (2 ^ (4 : BitVec 6).toNat - 1) ∧
    255 < 4335 := by decide
theorem witness_NormalizeTooManyBitsIsIllegal : 32 < (33 : BitVec 6).toNat ∧ 32 < (63 : BitVec 6).toNat := by decide
theorem witness_NormalizeContiguousMask : (1 ≤ 32 ∧ 0 + 32 ≤ 32) ∧ (1 ≤ 1 ∧ 31 + 1 ≤ 32) ∧ 255 ≤ 2 ^ 8 - 1 := by
  decide
theorem witness_NormalizeEightBitsIdentity :
    (0x12345678 &&& 0x00FF0000 : Word).toNat / 2 ^ (16 : BitVec 5).toNat ≤ 255 := by decide
theorem witness_CodecHasNoState :
    isReader (.normalize 5 5 0 2) = false ∧ (Instr.normalize 5 5 0 2).wf = true ∧ held.normOvf = faulted.normOvf := by
  decide
theorem witness_InvKeptByEveryStep :
    (held.setInputs [.command (encode .readbit)]).Inv ∧
    (shown (step (held.setInputs [.command (encode .readbit)]))).isSome = true := ⟨held_inv, by decide⟩
theorem witness_FaultClearedOnlyByReset :
    ((shown (after faulted (.command 0))).isSome = true ∧ faulted.fault = true ∧
      (HostEvent.command 0).isReset = false) ∧
    (faulted.setInputs [.rst]).inputs = [.rst] ∧ isReader .resetbitbuf = true := by decide
theorem witness_FirstFaultOfSession :
    (ended.fault = false ∧ ended.pos ≤ ended.len ∧
      (shown (after ended (.command (encode .readbit)))).map (fun x => x.2.2.2.2.1) = some true) ∧
    (held.fault = false ∧ held.pos ≤ held.len ∧
      (shown (after held (.command 0))).map (fun x => x.2.2.2.2.1) = some true) := by decide
theorem witness_CommandsReadSourceForwards :
    (shown (after fresh (.command (encode (.readbits 24))))).isSome = true := by decide
theorem witness_CommandWritesOnlyItsState :
    (shown (exec (.readbits 9) held)).isSome = true ∧ (shown (exec .resetbitbuf held)).isSome = true ∧
    (shown (exec (.bitwidthof 7) held)).isSome = true ∧ (shown (after held (.command 0))).isSome = true := by decide
theorem witness_ReadbitsIsRepeatedReadbit : held.fault = false ∧ ended.fault = false := by decide
theorem witness_ReadbitsOfOneIsReadbit :
    (1 : Word).toInt ≤ 1 ∧ (0x80000000 : Word).getLsbD 31 = true ∧ 32 ≤ (32 : Word).toInt := by decide
theorem witness_ReaderDocumentProperties :
    fresh.fault = false ∧ fresh.cnt = 0 ∧ fresh.pos + 3 ≤ fresh.len ∧ fresh.pos + 2 ≤ fresh.len := by decide
theorem witness_BytesConsumedByReaderRun :
    fresh.fault = false ∧ fresh.cnt = 0 ∧
    (runInstrs [.readbits 4, .readbit, .readbits 12] fresh).map (fun t => (t.fault, t.pos)) = some (false, 3) := by
  decide
/-- Bit address 1 of 16 with a part-used buffer: 15 bits can be read, 16 cannot. And the end of the source. -/
theorem witness_BitAddressView :
    (held.fault = false ∧ held.Synced ∧ held.bitAddress < 8 * held.len ∧
      held.bitAddress + bitCount 15 ≤ 8 * held.len ∧ 8 * held.len < held.bitAddress + bitCount 16) ∧
    (ended.fault = false ∧ ended.Synced ∧ ended.bitAddress = 8 * ended.len) :=
  ⟨⟨by decide, held_synced, by decide, by decide, by decide⟩, by decide, ended_synced, by decide⟩
theorem witness_SyncedKeptUnlessHostMoves :
    held.Synced ∧ (shown (step held)).isSome = true ∧ ended.Synced ∧ ended.cnt = 0 ∧
    (shown (after ended (.movePos 0))).isSome = true :=
  ⟨held_synced, by decide, ended_synced, by decide, by decide⟩
theorem witness_HostMovesCursorOnly :
    (held.setInputs [.movePos 2]).inputs = [.movePos 2] ∧ 2 ≤ held.len ∧ held.len < 3 := by decide
theorem witness_MoveUnderPartUsedBuffer :
    (held.fault = false ∧ bitCount 7 ≤ held.cnt) ∧ (ended.fault = false ∧ ended.cnt = 0 ∧ 1 < ended.len) := by decide
theorem witness_BytesReadBigEndian :
    (fresh.fault = false ∧ fresh.cnt = 0 ∧ fresh.pos + 2 ≤ fresh.len) ∧
    (block [1, 2, 3, 4] 0 0 0 false 0).fault = false ∧ (block [1, 2, 3, 4] 0 0 0 false 0).cnt = 0 ∧
    (block [1, 2, 3, 4] 0 0 0 false 0).pos + 4 ≤ (block [1, 2, 3, 4] 0 0 0 false 0).len := by decide
theorem witness_StartSessionAttachesSource :
    ([0xA5, 0] : List Byte).length < 2 ^ 32 ∧ 2 ≤ ([0xA5, 0] : List Byte).length ∧
    ([0xA5, 0] : List Byte).length < 3 := by decide
theorem witness_StartSessionTooLong : 2 ^ 32 ≤ (List.replicate (2 ^ 32) (0 : Byte)).length := by
  rw [List.length_replicate]
theorem witness_RstResetsBlockOnly : (faulted.setInputs [.rst]).inputs = [.rst] := by decide
theorem witness_RstDuringCommand :
    (fresh.setInputs [.rstDuring (encode (.readbits 24)) 1]).inputs = [.rstDuring (encode (.readbits 24)) 1] := by
  decide
/-- 7 bits held and one byte to come: READBITS 15 needs one request, READBITS 16 a second, answered by end of data.
The largest count of all needs four. -/
theorem witness_SourceThatNeverAnswers :
    (decode (encode (.readbits 15)) = .legal (.readbits 15) ∧ held.fault = false ∧
      ¬ held.cnt + 8 * (held.len - held.pos) < bitsTaken (.readbits 15) ∧
      (bitsTaken (.readbits 15) - held.cnt + 7) / 8 = 1) ∧
    (held.cnt + 8 * (held.len - held.pos) < bitsTaken (.readbits 16) ∧ (held.len - held.pos) + 1 = 2) ∧
    (decode (encode (.shiftof 5)) = .legal (.shiftof 5) ∧ isReader (.shiftof 5) = false ∧ faulted.fault = true) ∧
    decode 0 = .illegal .reservedOpcode ∧ (bitsTaken (.readbits 32) - 0 + 7) / 8 ≤ 4 := by decide
theorem witness_DefaultMasksShiftAndWidth : 24 ≠ 32 ∧ 16 ≠ 32 := by decide
theorem witness_WaitsWithNothingPresented : State.reset.inputs = [] := rfl
theorem witness_EveryCommandAnswered :
    (held.setInputs [.command (encode .readbit)]).Inv ∧ (faulted.setInputs [.command (encode .readbit)]).Inv :=
  ⟨held_inv, faulted_inv⟩

end Sys2Proof.Tests
end

/-! What a step can do, said once: the meaning of a command by its kind, and the next state by the move of the host. -/

namespace Sys2Proof.Machine

variable {s t : State} {i : Instr} {cw : CmdWord}

/-! The meaning of a command by its kind (R71 to R74, R90). -/

/-- A command takes bits (READBIT, READBITS), empties the buffer, or belongs to the codec. -/
theorem instr_kinds (i : Instr) :
    (i = .readbit ∨ ∃ count, i = .readbits count) ∨ i = .resetbitbuf ∨ isReader i = false := by
  cases i <;> simp [isReader]

/-- The fault gate of R74, for every reader command. -/
theorem exec_reader_of_fault (hi : isReader i = true) (hf : s.fault = true) :
    exec i s = .next (s.answer (.error s.fcause)) := by
  cases i with
  | readbit | readbits | resetbitbuf => exact gated_of_fault hf _
  | shiftof | bitwidthof | normalize => simp [isReader] at hi

/-- READBIT and READBITS with enough bits left (R71, R72). -/
theorem exec_takesBits_of_enough (hi : i = .readbit ∨ ∃ count, i = .readbits count) (hf : s.fault = false)
    (hn : bitsTaken i ≤ s.bitsLeft) :
    exec i s = .next ((s.afterBits (bitsTaken i)).answer (.ok (BitVec.ofNat 32 (s.pendingValue (bitsTaken i))))) := by
  obtain rfl | ⟨count, rfl⟩ := hi
  · rw [exec, execReadbit, gated_of_no_fault hf, nextBit_value hn]
    simp [complete, bitWord_eq, bitsTaken, State.pendingValue]
  · have hp : 2 ^ bitCount count ≤ 2 ^ 32 := Nat.pow_le_pow_right (by norm_num) (bitCount_range count).2
    rw [exec, execReadbits, gated_of_no_fault hf, takeBits_value (bitCount count) _ _ (by simpa using hp) hn]
    simp [complete, bitsTaken]

/-- READBIT and READBITS with too few bits left: what is left is taken, and the fault is entered (R71, R72, R125). -/
theorem exec_takesBits_of_exhausted (hi : i = .readbit ∨ ∃ count, i = .readbits count) (hf : s.fault = false)
    (hn : s.bitsLeft < bitsTaken i) : exec i s = .next (takeFault .unexpectedEndOfData s.drained) := by
  obtain rfl | ⟨count, rfl⟩ := hi
  · have h0 : s.bitsLeft = 0 := Nat.lt_one_iff.1 hn
    rw [exec, execReadbit, gated_of_no_fault hf, nextBit_raised h0, State.drained_of_empty h0]
    rfl
  · rw [exec, execReadbits, gated_of_no_fault hf, takeBits_raised (bitCount count) _ _ hn]
    rfl

/-- RESETBITBUF with no fault recorded (R73). -/
theorem exec_resetbitbuf_of_no_fault (hf : s.fault = false) :
    exec .resetbitbuf s = .next (s.emptyBuffer.answer (.ok 0)) :=
  gated_of_no_fault hf _

/-- A codec command has one answer in all states of one NORM_OVF, and gives nothing but that answer (R22, R90). -/
theorem exec_codec_answer (hi : isReader i = false) (hw : i.wf = true) (p : Config.NormOvf) :
    ∃ d : Word, ∀ s : State, s.normOvf = p → exec i s = .next (s.answer (.ok d)) := by
  cases i with
  | readbit | readbits | resetbitbuf => simp [isReader] at hi
  | shiftof mask => exact ⟨_, fun _ _ => rfl⟩
  | bitwidthof mask => exact ⟨_, fun _ _ => rfl⟩
  | normalize raw mask shift bits =>
    have hb : bits.toNat ≤ Config.maxBits := of_decide_eq_true hw
    refine ⟨normalizeValue p raw mask shift bits, fun s hs => ?_⟩
    rw [exec, execNormalize, if_pos hb, hs]
    rfl

/-! The command word presented (R51, R57). -/

theorem step_command {rest : List HostEvent} (h : s.inputs = .command cw :: rest) :
    step s = runCommand cw (s.setInputs rest) := by
  rw [step, h]
  rfl

theorem runCommand_of_legal (h : decode cw = .legal i) (s : State) : runCommand cw s = exec i s := by
  rw [runCommand, h]

theorem runCommand_of_illegal {why : IllegalWord} (h : decode cw = .illegal why) (s : State) :
    runCommand cw s = .next (takeFault .illegalCommand s) := by
  rw [runCommand, h]

theorem decodeN_legal {j : Instr} (h : decodeN j cw = .legal i) : i = j := by
  unfold decodeN at h
  split at h
  · cases h; rfl
  · cases h

theorem decodeA_legal {j : Instr} (h : decodeA j cw = .legal i) : i = j := by
  unfold decodeA at h
  split at h
  · cases h; rfl
  · cases h

theorem decodeX_legal_wf (h : decodeX cw = .legal i) : i.wf = true := by
  unfold decodeX at h
  split at h
  · cases h
    simpa [Instr.wf]
  · cases h

/-- The decoder gives commands with operands in range only (R57 case 5). -/
theorem wf_of_decode (h : decode cw = .legal i) : i.wf = true := by
  unfold decode at h
  split_ifs at h
  · rw [decodeN_legal h]; rfl
  · rw [decodeA_legal h]; rfl
  · rw [decodeN_legal h]; rfl
  · rw [decodeA_legal h]; rfl
  · rw [decodeA_legal h]; rfl
  · exact decodeX_legal_wf h

/-! The next state by the shape of the command and by the move of the host. -/

theorem CommandShape.of_exec (h : exec i s = .next t) : CommandShape s t := by
  obtain ⟨u, hu, hs⟩ := exec_shape i s
  cases hu.symm.trans h
  exact hs

theorem CommandShape.of_runCommand (h : runCommand cw s = .next t) : CommandShape s t := by
  obtain ⟨u, hu, hs⟩ := runCommand_shape cw s
  cases hu.symm.trans h
  exact hs

/-- No command writes the source (R30). -/
theorem CommandShape.mem_eq (h : CommandShape s t) : t.mem = s.mem := by
  cases h <;> subst t <;> rfl

/-- The bytes pulled for bits that are there lie inside the source (R36). -/
theorem State.pos_add_pulls_le {n : Nat} (hp : s.pos ≤ s.len) (hn : n ≤ s.bitsLeft) : s.pos + s.pulls n ≤ s.len := by
  unfold State.bitsLeft at hn
  unfold State.pulls
  omega

/-- No command moves the cursor past the end of the source (R37). -/
theorem CommandShape.pos_le (h : CommandShape s t) (hp : s.pos ≤ s.len) : t.pos ≤ s.len := by
  cases h with
  | answered r ht | emptied hf ht | illegal ht => simpa [ht] using hp
  | took n hf h1 h32 hn ht => simpa [ht] using State.pos_add_pulls_le hp hn
  | exhausted n hf h32 hn ht => simpa [ht] using hp

/-- What a move of the host makes of the state. -/
inductive MoveShape (s : State) : HostEvent → State → Prop where
  | command {cw : CmdWord} {t : State} (h : CommandShape s t) : MoveShape s (.command cw) t
  | commandStalled {cw : CmdWord} {answered : Nat} {t : State} (h : CommandShape s t) :
      MoveShape s (.commandStalled cw answered) t
  | movePos {p : Nat} (hp : p ≤ s.len) : MoveShape s (.movePos p) (s.placePos p)
  | rst : MoveShape s .rst s.blockReset
  | rstDuring {cw : CmdWord} {answered : Nat} {u : State} (h : CommandShape s u) :
      MoveShape s (.rstDuring cw answered) (s.placePos (min (s.pos + answered) u.pos)).blockReset
  | startSession {bytes : List Byte} {p : Nat} (hl : bytes.length < Config.sourceLimit) (hp : p ≤ bytes.length) :
      MoveShape s (.startSession bytes p) ((s.attach bytes).blockReset.placePos p)

theorem hostMove_eq_next {p : Nat} (h : hostMove p s = .next t) : p ≤ s.len ∧ t = s.placePos p := by
  unfold hostMove at h
  split at h
  · next hp => cases h; exact ⟨hp, rfl⟩
  · cases h

theorem runStalled_eq_next {answered : Nat} (h : runStalled cw answered s = .next t) : runCommand cw s = .next t := by
  obtain ⟨u, hu, -⟩ := runCommand_shape cw s
  simp only [runStalled, hu] at h
  split at h
  · cases h; exact hu
  · cases h

theorem runAborted_eq_next {answered : Nat} (h : runAborted cw answered s = .next t) :
    ∃ u, runCommand cw s = .next u ∧ t = (s.placePos (min (s.pos + answered) u.pos)).blockReset := by
  obtain ⟨u, hu, -⟩ := runCommand_shape cw s
  simp only [runAborted, hu] at h
  cases h
  exact ⟨u, hu, rfl⟩

theorem startSession_eq_next {bytes : List Byte} {p : Nat} (h : startSession bytes p s = .next t) :
    bytes.length < Config.sourceLimit ∧ p ≤ bytes.length ∧ t = (s.attach bytes).blockReset.placePos p := by
  unfold startSession at h
  split at h
  · cases h
  · next hl => exact ⟨Nat.lt_of_not_le hl, hostMove_eq_next h⟩

theorem MoveShape.of_perform {e : HostEvent} (h : perform e s = .next t) : MoveShape s e t := by
  cases e with
  | command cw => exact .command (.of_runCommand h)
  | commandStalled cw answered => exact .commandStalled (.of_runCommand (runStalled_eq_next h))
  | movePos p =>
    obtain ⟨hp, rfl⟩ := hostMove_eq_next h
    exact .movePos hp
  | rst =>
    cases h
    exact .rst
  | rstDuring cw answered =>
    obtain ⟨u, hu, rfl⟩ := runAborted_eq_next h
    exact .rstDuring (.of_runCommand hu)
  | startSession bytes p =>
    obtain ⟨hl, hp, rfl⟩ := startSession_eq_next h
    exact .startSession hl hp

/-- A step waits, or makes the host's next move on the state with that move taken off the list. -/
theorem step_eq_next (h : step s = .next t) :
    t = s ∨ ∃ e rest, s.inputs = e :: rest ∧ MoveShape (s.setInputs rest) e t := by
  unfold step at h
  split at h
  · cases h; exact .inl rfl
  · next e rest he => exact .inr ⟨e, rest, he, .of_perform h⟩

end Sys2Proof.Machine

/-! The invariant of spec/10_state.md R20: it holds after reset, and each operation on the state keeps it. -/

namespace Sys2Proof.Machine

variable {s t : State}

/-- The bits of a byte that taking bits leaves in the buffer: fewer than 8 (R20 item 1). -/
theorem State.afterBits_cnt_le (n : Nat) (h : s.cnt ≤ 7) : (s.afterBits n).cnt ≤ 7 := by
  simp only [State.afterBits_cnt, State.pulls]
  omega

theorem State.Inv.setInputs (h : s.Inv) (es : List HostEvent) : (s.setInputs es).Inv := { h with }

theorem State.Inv.answer (h : s.Inv) (r : Response) : (s.answer r).Inv := { h with }

theorem State.Inv.emptyBuffer (h : s.Inv) : s.emptyBuffer.Inv := { h with cntRange := Nat.zero_le _ }

theorem State.Inv.placePos (h : s.Inv) {p : Nat} (hp : p ≤ s.len) : (s.placePos p).Inv := { h with posRange := hp }

theorem State.Inv.afterBits (h : s.Inv) {n : Nat} (hn : n ≤ s.bitsLeft) : (s.afterBits n).Inv :=
  { h with
    cntRange := State.afterBits_cnt_le n h.cntRange
    posRange := State.pos_add_pulls_le h.posRange hn }

theorem State.Inv.drained (h : s.Inv) : s.drained.Inv :=
  { h with
    cntRange := Nat.zero_le _
    posRange := max_le h.posRange le_rfl }

theorem State.Inv.blockReset (h : s.Inv) : s.blockReset.Inv :=
  { h with
    cntRange := Nat.zero_le _
    faultCause := by simp
    causeRange := by simp }

theorem Cause.code_range (c : Cause) : c.code ≠ 0 ∧ c.code.toNat ≤ 2 := by
  cases c <;> decide

/-- Fault entry writes a cause of R120 on the first fault and keeps the cause on a later one. -/
theorem State.Inv.takeFault (h : s.Inv) (c : Cause) : (takeFault c s).Inv := by
  obtain ⟨hcode, hrange⟩ := c.code_range
  rcases Bool.eq_false_or_eq_true s.fault with hf | hf
  · have hne : s.fcause ≠ 0 := fun h0 => by simp [h.faultCause.2 h0] at hf
    exact { h with faultCause := by simpa [hf] using hne, causeRange := by simpa [hf] using h.causeRange }
  · exact { h with faultCause := by simpa [hf] using hcode, causeRange := by simpa [hf] using hrange }

/-- A session starts with an empty buffer, no fault and the canonical form of the bytes attached (R143). -/
theorem State.inv_startSession {bytes : List Byte} {p : Nat} (hl : bytes.length < Config.sourceLimit)
    (hp : p ≤ bytes.length) : ((s.attach bytes).blockReset.placePos p).Inv where
  cntRange := by simp
  faultCause := by simp
  causeRange := by simp
  posRange := hp
  lenRange := hl
  memCanonical := Memory.wf_ofBytes bytes
  memInside := by simpa using Memory.ofBytes_inside bytes 0

theorem CommandShape.inv (h : CommandShape s t) (hs : s.Inv) : t.Inv := by
  cases h with
  | answered r ht => exact ht ▸ hs.answer r
  | emptied hf ht => exact ht ▸ hs.emptyBuffer.answer _
  | took n hf h1 h32 hn ht => exact ht ▸ (hs.afterBits hn).answer _
  | exhausted n hf h32 hn ht => exact ht ▸ hs.drained.takeFault _
  | illegal ht => exact ht ▸ hs.takeFault _

theorem MoveShape.inv {e : HostEvent} (h : MoveShape s e t) (hs : s.Inv) : t.Inv := by
  cases h with
  | command h | commandStalled h => exact h.inv hs
  | movePos hp => exact hs.placePos hp
  | rst => exact hs.blockReset
  | rstDuring h => exact (hs.placePos ((min_le_right _ _).trans (h.pos_le hs.posRange))).blockReset
  | startSession hl hp => exact State.inv_startSession hl hp

/-- Settles O2: R21's values, each read off the definition. -/
theorem resetStateValues : Obligations.ResetStateValues := by
  unfold Obligations.ResetStateValues
  decide

/-- Settles O3: the source after reset is empty, the buffer too. -/
theorem resetMeetsInv : Obligations.ResetMeetsInv := by
  unfold Obligations.ResetMeetsInv
  exact
    { cntRange := by decide, faultCause := by decide, causeRange := by decide, posRange := by decide
      lenRange := by decide, memCanonical := Memory.wf_reset, memInside := by simp [State.reset] }

/-- Settles O22, by the shapes of a step. -/
theorem invKeptByEveryStep : Obligations.InvKeptByEveryStep := by
  intro s t hs hstep
  obtain rfl | ⟨e, rest, -, h⟩ := step_eq_next hstep
  · exact hs
  · exact h.inv (hs.setInputs rest)

end Sys2Proof.Machine

/-! The buffer is the byte before the cursor while only the block moves the cursor (R19, R75). -/

namespace Sys2Proof.Machine

variable {s t : State}

/-- With an empty buffer there is no byte to compare. -/
theorem State.synced_of_empty (hc : s.cnt = 0) (hp : s.pos ≤ s.len) : s.Synced where
  cntRange := by omega
  posRange := hp
  bufIsSource := by omega

theorem State.Synced.setInputs (h : s.Synced) (es : List HostEvent) : (s.setInputs es).Synced := { h with }

theorem State.Synced.answer (h : s.Synced) (r : Response) : (s.answer r).Synced := { h with }

theorem State.Synced.takeFault (h : s.Synced) (c : Cause) : (takeFault c s).Synced := { h with }

/-- Bits taken without a pull leave the buffer's byte in place; with one, the buffer is the last byte pulled. -/
theorem State.Synced.afterBits (h : s.Synced) {n : Nat} (hn : n ≤ s.bitsLeft) : (s.afterBits n).Synced where
  cntRange := State.afterBits_cnt_le n h.cntRange
  posRange := State.pos_add_pulls_le h.posRange hn
  bufIsSource hc := by
    by_cases hp : s.pulls n = 0
    · have hc' : 0 < s.cnt := by simp [hp] at hc; omega
      simpa [hp] using h.bufIsSource hc'
    · simp [hp]
      omega

theorem State.synced_drained (h : s.pos ≤ s.len) : s.drained.Synced :=
  State.synced_of_empty rfl (max_le h le_rfl)

theorem CommandShape.synced (h : CommandShape s t) (hs : s.Synced) : t.Synced := by
  cases h with
  | answered r ht => exact ht ▸ hs.answer r
  | emptied hf ht => exact ht ▸ State.synced_of_empty rfl hs.posRange
  | took n hf h1 h32 hn ht => exact ht ▸ (hs.afterBits hn).answer _
  | exhausted n hf h32 hn ht => exact ht ▸ (State.synced_drained hs.posRange).takeFault _
  | illegal ht => exact ht ▸ hs.takeFault _

/-- Settles O32, by the shapes of a step: every move but a command leaves the buffer empty. -/
theorem syncedKeptUnlessHostMoves : Obligations.SyncedKeptUnlessHostMoves := by
  intro s t hs hstep hmove
  obtain rfl | ⟨e, rest, he, h⟩ := step_eq_next hstep
  · exact hs
  cases h with
  | command h | commandStalled h => exact h.synced (hs.setInputs rest)
  | movePos hp => exact State.synced_of_empty (hmove _ rest he) hp
  | rst => exact State.synced_of_empty rfl hs.posRange
  | rstDuring h => exact State.synced_of_empty rfl ((min_le_right _ _).trans (h.pos_le hs.posRange))
  | startSession hl hp => exact State.synced_of_empty rfl hp

end Sys2Proof.Machine

/-! What a command may depend on, write, and fault for (R15, R22, R120). -/

namespace Sys2Proof.Machine

variable {s t : State} {i : Instr}

/-- Settles O21: the one answer of `exec_codec_answer`, in both states. -/
theorem codecHasNoState : Obligations.CodecHasNoState := by
  intro s u i hi hw hsu
  obtain ⟨d, hd⟩ := exec_codec_answer hi hw u.normOvf
  exact ⟨d, hd s hsu, hd u rfl⟩

/-- Taking bits writes the reader's fields and the response, and FAULT and FCAUSE only when it answers ERR(1). -/
theorem takesBits_writes (hi : i = .readbit ∨ ∃ count, i = .readbits count) (h : exec i s = .next t) :
    t = { s with buf := t.buf, cnt := t.cnt, pos := t.pos, fault := t.fault, fcause := t.fcause, rsp := t.rsp } ∧
      ((t.fault = s.fault ∧ t.fcause = s.fcause) ∨ t.rsp = some ⟨true, 1, 0⟩) := by
  rcases Bool.eq_false_or_eq_true s.fault with hf | hf
  · have hr : isReader i = true := by obtain rfl | ⟨count, rfl⟩ := hi <;> rfl
    cases (exec_reader_of_fault hr hf).symm.trans h
    exact ⟨rfl, .inl ⟨rfl, rfl⟩⟩
  · rcases le_or_gt (bitsTaken i) s.bitsLeft with hn | hn
    · cases (exec_takesBits_of_enough hi hf hn).symm.trans h
      exact ⟨rfl, .inl ⟨rfl, rfl⟩⟩
    · cases (exec_takesBits_of_exhausted hi hf hn).symm.trans h
      exact ⟨rfl, .inr rfl⟩

theorem resetbitbuf_writes (h : exec .resetbitbuf s = .next t) : t = { s with cnt := t.cnt, rsp := t.rsp } := by
  rcases Bool.eq_false_or_eq_true s.fault with hf | hf
  · cases (exec_reader_of_fault rfl hf).symm.trans h
    rfl
  · cases (exec_resetbitbuf_of_no_fault hf).symm.trans h
    rfl

theorem codec_writes (hi : isReader i = false) (hw : i.wf = true) (h : exec i s = .next t) :
    t = { s with rsp := t.rsp } := by
  obtain ⟨d, hd⟩ := exec_codec_answer hi hw s.normOvf
  cases (hd s rfl).symm.trans h
  rfl

/-- Settles O26, one lemma per kind of command. -/
theorem commandWritesOnlyItsState : Obligations.CommandWritesOnlyItsState := by
  constructor
  · intro s t i h
    refine ⟨fun hi => takesBits_writes hi h, ?_, fun hi hw => codec_writes hi hw h, ?_⟩
    · rintro rfl
      exact resetbitbuf_writes h
    · intro a
      rw [(CommandShape.of_exec h).mem_eq]
  · intro s t cw rest why hin hd h
    rw [step_command hin, runCommand_of_illegal hd] at h
    cases h
    rfl

/-- A command with operands in range faults only by running out of bits. -/
theorem exec_faults_only_exhausted (hw : i.wf = true) (hf : s.fault = false) (h : exec i s = .next t)
    (ht : t.fault = true) :
    (i = .readbit ∨ ∃ count, i = .readbits count) ∧ t = takeFault .unexpectedEndOfData s.drained := by
  obtain hi | rfl | hi := instr_kinds i
  · refine ⟨hi, ?_⟩
    rcases le_or_gt (bitsTaken i) s.bitsLeft with hn | hn
    · cases (exec_takesBits_of_enough hi hf hn).symm.trans h
      simp [hf] at ht
    · cases (exec_takesBits_of_exhausted hi hf hn).symm.trans h
      rfl
  · rw [resetbitbuf_writes h] at ht
    simp [hf] at ht
  · rw [codec_writes hi hw h] at ht
    simp [hf] at ht

/-- Settles O24: an illegal word, or `exec_faults_only_exhausted` of the command decoded. -/
theorem firstFaultOfSession : Obligations.FirstFaultOfSession := by
  intro s t cw rest hin hf hp h ht
  rw [step_command hin] at h
  cases hd : decode cw with
  | illegal why =>
    rw [runCommand_of_illegal hd] at h
    cases h
    exact .inr ⟨by simp [hf, Cause.code], rfl, rfl, rfl, rfl, why, rfl⟩
  | legal i =>
    rw [runCommand_of_legal hd] at h
    obtain ⟨hi, rfl⟩ := exec_faults_only_exhausted (s := s.setInputs rest) (wf_of_decode hd) hf h ht
    exact .inl ⟨by simp [hf, Cause.code], rfl, rfl, max_eq_right hp, i, rfl, hi⟩

end Sys2Proof.Machine

/-! The byte source under a command (spec/20_memory.md R30 to R37): it is read forwards only and never written. -/

namespace Sys2Proof.Machine

variable {s t : State}

/-- No command changes the length of the source (R18). -/
theorem CommandShape.len_eq (h : CommandShape s t) : t.len = s.len := by
  cases h <;> subst t <;> rfl

/-- At most 32 bits are taken from at most 4 bytes (R36). -/
theorem State.pulls_le_four {n : Nat} (h : n ≤ 32) : s.pulls n ≤ 4 := by
  unfold State.pulls
  omega

/-- The bytes pulled for bits that are there are at most those left, wherever the cursor stands (R36). -/
theorem State.pulls_le_of_le_bitsLeft {n : Nat} (h : n ≤ s.bitsLeft) : s.pulls n ≤ s.len - s.pos := by
  unfold State.bitsLeft at h
  unfold State.pulls
  omega

/-- Where fewer than 32 bits are left, fewer than 4 bytes are. -/
theorem State.len_lt_of_bitsLeft_lt {n : Nat} (h : s.bitsLeft < n) (hn : n ≤ 32) : s.len < s.pos + 4 := by
  unfold State.bitsLeft at h
  omega

/-- A command moves the cursor forward by at most 4, and not past the end of the source (R31, R36, R37). -/
theorem CommandShape.pos_forward (h : CommandShape s t) :
    s.pos ≤ t.pos ∧ t.pos ≤ s.pos + 4 ∧ t.pos ≤ max s.pos s.len := by
  cases h with
  | answered r ht | emptied hf ht | illegal ht => simp [ht]
  | took n hf h1 h32 hn ht =>
    have h4 : s.pulls n ≤ 4 := State.pulls_le_four h32
    have hleft := State.pulls_le_of_le_bitsLeft hn
    simp only [ht, State.answer_pos, State.afterBits_pos]
    omega
  | exhausted n hf h32 hn ht =>
    have h4 := State.len_lt_of_bitsLeft_lt hn h32
    simp only [ht, takeFault_pos, State.drained_pos]
    omega

/-- Settles O25, by the shape of the command. -/
theorem commandsReadSourceForwards : Obligations.CommandsReadSourceForwards := by
  intro s t cw rest hin h
  rw [step_command hin] at h
  have hs := CommandShape.of_runCommand h
  have hmem : t.mem = s.mem := hs.mem_eq
  exact ⟨fun a => by rw [hmem], hmem, hs.len_eq, hs.pos_forward⟩

end Sys2Proof.Machine

/-! Whole bytes taken from an exhausted buffer (spec/20_memory.md R33, R34). -/

namespace Sys2Proof.Machine

variable {s : State}

/-- The first `j` bits of a byte after `k` whole bytes: the byte's high bits below the number of the bytes (R33). -/
theorem State.pendingValue_bits_of_byte (hc : s.cnt = 0) (k : Nat) {j : Nat} (hj : j ≤ 8) :
    s.pendingValue (8 * k + j) = 2 ^ j * s.pendingValue (8 * k) + (s.mem.read (s.pos + k)).toNat / 2 ^ (8 - j) := by
  induction j with
  | zero =>
    have := (s.mem.read (s.pos + k)).isLt
    simp [Nat.div_eq_of_lt this]
  | succ j ih =>
    have hbit : (s.pendingBit (8 * k + j)).toNat = (s.mem.read (s.pos + k)).toNat / 2 ^ (7 - j) % 2 := by
      have hk : (8 * k + j) / 8 = k := by omega
      have hm : j % 8 = j := by omega
      simp [State.pendingBit, hc, hk, hm, BitVec.getLsbD, Nat.toNat_testBit]
    have hdigit : (s.mem.read (s.pos + k)).toNat / 2 ^ (7 - j) =
        2 * ((s.mem.read (s.pos + k)).toNat / 2 ^ (8 - j)) + (s.pendingBit (8 * k + j)).toNat := by
      rw [hbit, show 8 - j = 7 - j + 1 by omega, pow_succ, ← Nat.div_div_eq_div_mul, Nat.div_add_mod]
    rw [← Nat.add_assoc, State.pendingValue, ih (by omega), show 8 - (j + 1) = 7 - j by omega, hdigit, pow_succ]
    ring

/-- One more byte is one more digit of base 256, the first byte the highest (R34). -/
theorem State.pendingValue_succ_byte (hc : s.cnt = 0) (k : Nat) :
    s.pendingValue (8 * (k + 1)) = 256 * s.pendingValue (8 * k) + (s.mem.read (s.pos + k)).toNat := by
  rw [Nat.mul_succ, State.pendingValue_bits_of_byte hc k le_rfl]
  simp

/-- Appending a byte to a word, as a number. -/
theorem toNat_append_byte {w : Nat} (x : BitVec w) (b : Byte) : (x ++ b).toNat = 256 * x.toNat + b.toNat := by
  rw [BitVec.toNat_append, ← Nat.shiftLeft_add_eq_or_of_lt b.isLt, Nat.shiftLeft_eq, Nat.mul_comm]

/-- READBITS of `k + 1` whole bytes from an exhausted buffer: the last byte is held, with no bit of it left (R36). -/
theorem exec_readbits_bytes {count d : Word} {k : Nat} (hf : s.fault = false) (hc : s.cnt = 0)
    (hb : bitCount count = 8 * (k + 1)) (hp : s.pos + (k + 1) ≤ s.len)
    (hd : d.toNat = s.pendingValue (8 * (k + 1))) :
    exec (.readbits count) s = .next { s with
      buf := s.mem.read (s.pos + k)
      pos := s.pos + (k + 1)
      rsp := some ⟨false, 0, d⟩ } := by
  have hpulls : s.pulls (8 * (k + 1)) = k + 1 := by
    simp only [State.pulls, hc]
    omega
  have hleft : bitsTaken (.readbits count) ≤ s.bitsLeft := by
    simp only [bitsTaken, State.bitsLeft, hb, hc]
    omega
  rw [exec_takesBits_of_enough (.inr ⟨count, rfl⟩) hf hleft, bitsTaken, hb, ← hd, BitVec.ofNat_toNat]
  congr 1
  apply State.eq_of_fields <;> simp [hpulls, hc, Response.ok]

/-- Settles O35: `exec_readbits_bytes` for 1, 2 and 4 bytes, their number digit by digit. -/
theorem bytesReadBigEndian : Obligations.BytesReadBigEndian := by
  intro s hf hc
  have h0 : s.pendingValue (8 * 0) = 0 := rfl
  have h1 := State.pendingValue_succ_byte hc 0
  have h2 := State.pendingValue_succ_byte hc 1
  have h3 := State.pendingValue_succ_byte hc 2
  have h4 := State.pendingValue_succ_byte hc 3
  refine ⟨fun hp => exec_readbits_bytes (k := 0) hf hc rfl hp ?_,
    fun hp => exec_readbits_bytes (k := 1) hf hc rfl hp ?_,
    fun hp => exec_readbits_bytes (k := 3) hf hc rfl hp ?_⟩
  · rw [h1, h0, BitVec.toNat_setWidth_of_le (by decide)]
    simp
  · rw [h2, h1, h0, toNat_append_byte, toNat_append_byte]
    simp
  · rw [h4, h3, h2, h1, h0, toNat_append_byte, toNat_append_byte, toNat_append_byte]
    simp

end Sys2Proof.Machine

/-! The layout of a command word (R52): a word is its eight fields, and `ofFields` is the word of given ones. -/

namespace Sys2Proof

variable {cw : CmdWord}

section ofFields

variable (o : BitVec 4) (sh : BitVec 5) (bits : BitVec 6) (x y : Word)

@[simp] theorem CmdWord.op_ofFields : CmdWord.op (CmdWord.ofFields o sh bits x y) = o :=
  (Laws.OpcodeField.ofFields_reserved o sh bits x y).1

@[simp] theorem CmdWord.rsv3_ofFields : CmdWord.rsv3 (CmdWord.ofFields o sh bits x y) = 0 :=
  (Laws.OpcodeField.ofFields_reserved o sh bits x y).2.1

@[simp] theorem CmdWord.rsv2_ofFields : CmdWord.rsv2 (CmdWord.ofFields o sh bits x y) = 0 :=
  (Laws.OpcodeField.ofFields_reserved o sh bits x y).2.2.1

@[simp] theorem CmdWord.rsv1_ofFields : CmdWord.rsv1 (CmdWord.ofFields o sh bits x y) = 0 :=
  (Laws.OpcodeField.ofFields_reserved o sh bits x y).2.2.2

/-- The four operand fields of a word from its fields: each stands at the bits R52 gives it. -/
theorem CmdWord.operands_ofFields :
    CmdWord.s (CmdWord.ofFields o sh bits x y) = sh ∧ CmdWord.w (CmdWord.ofFields o sh bits x y) = bits ∧
      CmdWord.a (CmdWord.ofFields o sh bits x y) = x ∧ CmdWord.b (CmdWord.ofFields o sh bits x y) = y := by
  refine ⟨?_, ?_, ?_, ?_⟩ <;>
    simp (disch := decide) only [CmdWord.s, CmdWord.w, CmdWord.a, CmdWord.b, CmdWord.ofFields,
      BitVec.extractLsb'_append_eq_of_le, BitVec.extractLsb'_append_eq_of_add_le] <;>
    exact BitVec.extractLsb'_eq_self

@[simp] theorem CmdWord.s_ofFields : CmdWord.s (CmdWord.ofFields o sh bits x y) = sh :=
  (CmdWord.operands_ofFields o sh bits x y).1

@[simp] theorem CmdWord.w_ofFields : CmdWord.w (CmdWord.ofFields o sh bits x y) = bits :=
  (CmdWord.operands_ofFields o sh bits x y).2.1

@[simp] theorem CmdWord.a_ofFields : CmdWord.a (CmdWord.ofFields o sh bits x y) = x :=
  (CmdWord.operands_ofFields o sh bits x y).2.2.1

@[simp] theorem CmdWord.b_ofFields : CmdWord.b (CmdWord.ofFields o sh bits x y) = y :=
  (CmdWord.operands_ofFields o sh bits x y).2.2.2

end ofFields

/-- Every word is its fields, most significant first (R52). -/
theorem CmdWord.append_fields (cw : CmdWord) :
    CmdWord.rsv3 cw ++ CmdWord.op cw ++ CmdWord.rsv2 cw ++ CmdWord.s cw ++ CmdWord.rsv1 cw ++ CmdWord.w cw ++
      CmdWord.a cw ++ CmdWord.b cw = cw := by
  simp (disch := decide) only [CmdWord.rsv3, CmdWord.op, CmdWord.rsv2, CmdWord.s, CmdWord.rsv1, CmdWord.w,
    CmdWord.a, CmdWord.b, BitVec.extractLsb'_append_extractLsb'_eq_extractLsb']
  exact BitVec.extractLsb'_eq_self (x := cw)

/-- Two words are equal exactly when their fields are. -/
theorem CmdWord.eq_iff_fields {cw cw' : CmdWord} : cw = cw' ↔
    CmdWord.rsv3 cw = CmdWord.rsv3 cw' ∧ CmdWord.op cw = CmdWord.op cw' ∧ CmdWord.rsv2 cw = CmdWord.rsv2 cw' ∧
      CmdWord.s cw = CmdWord.s cw' ∧ CmdWord.rsv1 cw = CmdWord.rsv1 cw' ∧ CmdWord.w cw = CmdWord.w cw' ∧
      CmdWord.a cw = CmdWord.a cw' ∧ CmdWord.b cw = CmdWord.b cw' := by
  constructor
  · rintro rfl
    simp
  · rintro ⟨h1, h2, h3, h4, h5, h6, h7, h8⟩
    rw [← CmdWord.append_fields cw, ← CmdWord.append_fields cw', h1, h2, h3, h4, h5, h6, h7, h8]

/-- A word is the one of given fields exactly when it has them and no reserved bit set (R56). -/
theorem CmdWord.ofFields_eq_iff {o : BitVec 4} {sh : BitVec 5} {bits : BitVec 6} {x y : Word} :
    CmdWord.ofFields o sh bits x y = cw ↔
      CmdWord.rsv3 cw = 0 ∧ CmdWord.op cw = o ∧ CmdWord.rsv2 cw = 0 ∧ CmdWord.s cw = sh ∧
        CmdWord.rsv1 cw = 0 ∧ CmdWord.w cw = bits ∧ CmdWord.a cw = x ∧ CmdWord.b cw = y := by
  rw [eq_comm, CmdWord.eq_iff_fields, CmdWord.op_ofFields, CmdWord.rsv3_ofFields, CmdWord.rsv2_ofFields,
    CmdWord.rsv1_ofFields, CmdWord.s_ofFields, CmdWord.w_ofFields, CmdWord.a_ofFields, CmdWord.b_ofFields]

end Sys2Proof

/-! The decoder and the encoder are inverse to each other (R63). -/

namespace Sys2Proof.Machine

variable {cw : CmdWord} {i j : Instr}

/-- The decoder reads every operand back from the word the encoder wrote. -/
theorem decode_encode (hw : i.wf = true) : decode (encode i) = .legal i := by
  cases i with
  | readbit | resetbitbuf => simp [decode, encode, opcodeOf, decodeN]
  | readbits | shiftof | bitwidthof => simp [decode, encode, opcodeOf, decodeA]
  | normalize raw mask shift bits =>
    have hb : bits.toNat ≤ Config.maxBits := of_decide_eq_true hw
    simp [decode, encode, opcodeOf, decodeX, hb]

section legalWord

variable (hr : CmdWord.rsv3 cw = 0 ∧ CmdWord.rsv2 cw = 0 ∧ CmdWord.rsv1 cw = 0)
include hr

theorem encode_of_decodeN (hj : encode j = CmdWord.ofFields (CmdWord.op cw) 0 0 0 0) (h : decodeN j cw = .legal i) :
    encode i = cw := by
  obtain rfl := decodeN_legal h
  unfold decodeN at h
  split at h
  · next h0 =>
    obtain ⟨⟨h3, h2, h1⟩, hs, hw, hab⟩ := And.intro hr h0
    exact hj.trans (CmdWord.ofFields_eq_iff.2 ⟨h3, rfl, h2, hs, h1, hw, hab⟩)
  · cases h

theorem encode_of_decodeA (hj : encode j = CmdWord.ofFields (CmdWord.op cw) 0 0 (CmdWord.a cw) 0)
    (h : decodeA j cw = .legal i) : encode i = cw := by
  obtain rfl := decodeA_legal h
  unfold decodeA at h
  split at h
  · next h0 =>
    obtain ⟨⟨h3, h2, h1⟩, hs, hw, hb⟩ := And.intro hr h0
    exact hj.trans (CmdWord.ofFields_eq_iff.2 ⟨h3, rfl, h2, hs, h1, hw, rfl, hb⟩)
  · cases h

theorem encode_of_decodeX (ho : CmdWord.op cw = 6) (h : decodeX cw = .legal i) : encode i = cw := by
  unfold decodeX at h
  split at h
  · cases h
    obtain ⟨h3, h2, h1⟩ := hr
    exact CmdWord.ofFields_eq_iff.2 ⟨h3, ho, h2, rfl, h1, rfl, rfl, rfl⟩
  · cases h

end legalWord

/-- A legal word is the encoder's word of what it decodes to, one format of R53 at a time. -/
theorem encode_of_decode (h : decode cw = .legal i) : encode i = cw := by
  unfold decode at h
  split at h
  · cases h
  next hr =>
  push Not at hr
  split_ifs at h with h1 h2 h3 h4 h5 h6
  · exact encode_of_decodeN hr (by rw [h1]; rfl) h
  · exact encode_of_decodeA hr (by rw [h2]; rfl) h
  · exact encode_of_decodeN hr (by rw [h3]; rfl) h
  · exact encode_of_decodeA hr (by rw [h4]; rfl) h
  · exact encode_of_decodeA hr (by rw [h5]; rfl) h
  · exact encode_of_decodeX hr h6 h

/-- Settles O7: the encoder undoes the decoder and the decoder the encoder. -/
theorem decodeEncodeAgree : Obligations.DecodeEncodeAgree := by
  unfold Obligations.DecodeEncodeAgree
  exact ⟨fun i hw => decode_encode hw, fun cw i h => ⟨wf_of_decode h, encode_of_decode h⟩⟩

end Sys2Proof.Machine

/-! The illegal words (R57) and the command port (R51, R122). -/

namespace Sys2Proof.Machine

variable {cw : CmdWord} {i j : Instr}

/-- R57 case 3. -/
theorem decodeN_illegal_iff : (∃ why, decodeN j cw = .illegal why) ↔
    CmdWord.s cw ≠ 0 ∨ CmdWord.w cw ≠ 0 ∨ CmdWord.a cw ≠ 0 ∨ CmdWord.b cw ≠ 0 := by
  unfold decodeN
  split
  · next h => simp [h]
  · next h => exact iff_of_true ⟨_, rfl⟩ (by simpa only [not_and_or] using h)

/-- R57 case 4. -/
theorem decodeA_illegal_iff : (∃ why, decodeA j cw = .illegal why) ↔
    CmdWord.s cw ≠ 0 ∨ CmdWord.w cw ≠ 0 ∨ CmdWord.b cw ≠ 0 := by
  unfold decodeA
  split
  · next h => simp [h]
  · next h => exact iff_of_true ⟨_, rfl⟩ (by simpa only [not_and_or] using h)

/-- R57 case 5. -/
theorem decodeX_illegal_iff : (∃ why, decodeX cw = .illegal why) ↔ 33 ≤ (CmdWord.w cw).toNat := by
  unfold decodeX
  split
  · next h => exact iff_of_false (by simp) (Nat.not_lt_of_ge h)
  · next h => exact iff_of_true ⟨_, rfl⟩ (Nat.lt_of_not_le h)

/-- R57 whole: the five cases of an illegal word, by its fields. -/
theorem decode_illegal_iff (cw : CmdWord) : (∃ why, decode cw = .illegal why) ↔
    ((CmdWord.op cw).toNat = 0 ∨ 7 ≤ (CmdWord.op cw).toNat) ∨
    (CmdWord.rsv3 cw ≠ 0 ∨ CmdWord.rsv2 cw ≠ 0 ∨ CmdWord.rsv1 cw ≠ 0) ∨
    (((CmdWord.op cw).toNat = 1 ∨ (CmdWord.op cw).toNat = 3) ∧
      (CmdWord.s cw ≠ 0 ∨ CmdWord.w cw ≠ 0 ∨ CmdWord.a cw ≠ 0 ∨ CmdWord.b cw ≠ 0)) ∨
    (((CmdWord.op cw).toNat = 2 ∨ (CmdWord.op cw).toNat = 4 ∨ (CmdWord.op cw).toNat = 5) ∧
      (CmdWord.s cw ≠ 0 ∨ CmdWord.w cw ≠ 0 ∨ CmdWord.b cw ≠ 0)) ∨
    ((CmdWord.op cw).toNat = 6 ∧ 33 ≤ (CmdWord.w cw).toNat) := by
  unfold decode
  split
  · next hr => exact iff_of_true ⟨_, rfl⟩ (.inr (.inl hr))
  next hr =>
  push Not at hr
  split_ifs with h1 h2 h3 h4 h5 h6
  · simp [decodeN_illegal_iff, hr, h1]
  · simp [decodeA_illegal_iff, hr, h2]
  · simp [decodeN_illegal_iff, hr, h3]
  · simp [decodeA_illegal_iff, hr, h4]
  · simp [decodeA_illegal_iff, hr, h5]
  · simp [decodeX_illegal_iff, hr, h6]
  · have hop : (CmdWord.op cw).toNat = 0 ∨ 7 ≤ (CmdWord.op cw).toNat := by bv_omega
    exact iff_of_true ⟨_, rfl⟩ (.inl hop)

/-- Settles O5: the slices of the statement are the named fields, and the step is the entry of IllegalCommand. -/
theorem illegalWordsRaiseIllegalCommand : Obligations.IllegalWordsRaiseIllegalCommand := by
  unfold Obligations.IllegalWordsRaiseIllegalCommand
  refine ⟨decode_illegal_iff, fun s cw rest why hin hd => ?_⟩
  rw [step_command hin, runCommand_of_illegal hd]
  rfl

/-- Settles O1: each word read by the decoder. -/
theorem sampleWordsDecode : Obligations.SampleWordsDecode := by
  unfold Obligations.SampleWordsDecode
  decide

/-- Settles O4: the word is taken off the list and its command run. -/
theorem stepRunsDecodedCommand : Obligations.StepRunsDecodedCommand := by
  intro s cw rest i hin hd
  rw [step_command hin, runCommand_of_legal hd]
  rfl

/-- Settles O40: with an empty list the step is the identity. -/
theorem waitsWithNothingPresented : Obligations.WaitsWithNothingPresented := by
  intro s h
  rw [step, h]

/-- Settles O17: the word of such operands is refused by `decodeX`, and the operands by the meaning. -/
theorem normalizeTooManyBitsIsIllegal : Obligations.NormalizeTooManyBitsIsIllegal := by
  intro s raw mask shift bits hb
  constructor
  · simp [decode, encode, opcodeOf, decodeX, hb]
  · rw [exec, execNormalize, if_neg (Nat.not_le_of_lt hb)]
    rfl

end Sys2Proof.Machine

/-! The opcode map of R55 as masks over the fields, and its rows against the decoder. -/

namespace Sys2Proof.Machine

variable {cw : CmdWord} {i : Instr}

/-- The decoder as a relation: a legal word is the encoder's word of a command with operands in range (R63). -/
theorem decode_eq_legal_iff : decode cw = .legal i ↔ i.wf = true ∧ encode i = cw :=
  ⟨fun h => ⟨wf_of_decode h, encode_of_decode h⟩, fun ⟨hw, he⟩ => he ▸ decode_encode hw⟩

/-- Masking a word masks each of its fields. -/
theorem and_eq_iff_fields {m k : CmdWord} : cw &&& m = k ↔
    CmdWord.rsv3 cw &&& CmdWord.rsv3 m = CmdWord.rsv3 k ∧ CmdWord.op cw &&& CmdWord.op m = CmdWord.op k ∧
      CmdWord.rsv2 cw &&& CmdWord.rsv2 m = CmdWord.rsv2 k ∧ CmdWord.s cw &&& CmdWord.s m = CmdWord.s k ∧
      CmdWord.rsv1 cw &&& CmdWord.rsv1 m = CmdWord.rsv1 k ∧ CmdWord.w cw &&& CmdWord.w m = CmdWord.w k ∧
      CmdWord.a cw &&& CmdWord.a m = CmdWord.a k ∧ CmdWord.b cw &&& CmdWord.b m = CmdWord.b k := by
  rw [CmdWord.eq_iff_fields]
  simp only [CmdWord.rsv3, CmdWord.op, CmdWord.rsv2, CmdWord.s, CmdWord.rsv1, CmdWord.w, CmdWord.a, CmdWord.b,
    BitVec.extractLsb'_and]

/-- The mask of format N is every bit. -/
theorem and_maskN_eq_iff {o : BitVec 4} :
    cw &&& 0xFFFFFFFFFFFFFFFFFFFFFFFF = CmdWord.ofFields o 0 0 0 0 ↔ CmdWord.ofFields o 0 0 0 0 = cw := by
  rw [show cw &&& 0xFFFFFFFFFFFFFFFFFFFFFFFF = cw from BitVec.and_allOnes, eq_comm]

/-- The mask of format A is every field but `A`. -/
theorem and_maskA_eq_iff {o : BitVec 4} :
    cw &&& 0xFFFFFFFF00000000FFFFFFFF = CmdWord.ofFields o 0 0 0 0 ↔ ∃ x, CmdWord.ofFields o 0 0 x 0 = cw := by
  have hm : CmdWord.rsv3 0xFFFFFFFF00000000FFFFFFFF = BitVec.allOnes 4 ∧
      CmdWord.op 0xFFFFFFFF00000000FFFFFFFF = BitVec.allOnes 4 ∧
      CmdWord.rsv2 0xFFFFFFFF00000000FFFFFFFF = BitVec.allOnes 11 ∧
      CmdWord.s 0xFFFFFFFF00000000FFFFFFFF = BitVec.allOnes 5 ∧
      CmdWord.rsv1 0xFFFFFFFF00000000FFFFFFFF = BitVec.allOnes 2 ∧
      CmdWord.w 0xFFFFFFFF00000000FFFFFFFF = BitVec.allOnes 6 ∧
      CmdWord.a 0xFFFFFFFF00000000FFFFFFFF = 0 ∧
      CmdWord.b 0xFFFFFFFF00000000FFFFFFFF = BitVec.allOnes 32 := by decide
  simp only [and_eq_iff_fields, CmdWord.ofFields_eq_iff, hm, BitVec.and_allOnes]
  simp

/-- The mask of format X is `OP` and the reserved bits. -/
theorem and_maskX_eq_iff {o : BitVec 4} :
    cw &&& 0xFFFFE0C00000000000000000 = CmdWord.ofFields o 0 0 0 0 ↔
      ∃ sh bits x y, CmdWord.ofFields o sh bits x y = cw := by
  have hm : CmdWord.rsv3 0xFFFFE0C00000000000000000 = BitVec.allOnes 4 ∧
      CmdWord.op 0xFFFFE0C00000000000000000 = BitVec.allOnes 4 ∧
      CmdWord.rsv2 0xFFFFE0C00000000000000000 = BitVec.allOnes 11 ∧
      CmdWord.s 0xFFFFE0C00000000000000000 = 0 ∧
      CmdWord.rsv1 0xFFFFE0C00000000000000000 = BitVec.allOnes 2 ∧
      CmdWord.w 0xFFFFE0C00000000000000000 = 0 ∧
      CmdWord.a 0xFFFFE0C00000000000000000 = 0 ∧
      CmdWord.b 0xFFFFE0C00000000000000000 = 0 := by decide
  simp only [and_eq_iff_fields, CmdWord.ofFields_eq_iff, hm, BitVec.and_allOnes]
  simp

/-- The words that decode to a command with a given `OP`, format by format (R53). -/
theorem exists_decode_iff {o : BitVec 4} : (∃ i, decode cw = .legal i ∧ opcodeOf i = o) ↔
    (o = 1 ∨ o = 3) ∧ CmdWord.ofFields o 0 0 0 0 = cw ∨
    (o = 2 ∨ o = 4 ∨ o = 5) ∧ (∃ x, CmdWord.ofFields o 0 0 x 0 = cw) ∨
    o = 6 ∧ (∃ sh bits x y, CmdWord.ofFields o sh bits x y = cw) ∧ (CmdWord.w cw).toNat ≤ Config.maxBits := by
  simp only [decode_eq_legal_iff]
  constructor
  · rintro ⟨i, ⟨hw, rfl⟩, rfl⟩
    cases i with
    | readbit => exact .inl ⟨.inl rfl, rfl⟩
    | readbits count => exact .inr (.inl ⟨.inl rfl, count, rfl⟩)
    | resetbitbuf => exact .inl ⟨.inr rfl, rfl⟩
    | shiftof mask => exact .inr (.inl ⟨.inr (.inl rfl), mask, rfl⟩)
    | bitwidthof mask => exact .inr (.inl ⟨.inr (.inr rfl), mask, rfl⟩)
    | normalize raw mask shift bits =>
      exact .inr (.inr ⟨rfl, ⟨shift, bits, mask, raw, rfl⟩, by simpa [encode, Instr.wf] using hw⟩)
  · rintro (⟨rfl | rfl, rfl⟩ | ⟨rfl | rfl | rfl, x, rfl⟩ | ⟨rfl, ⟨sh, bits, x, y, rfl⟩, hb⟩)
    · exact ⟨.readbit, ⟨rfl, rfl⟩, rfl⟩
    · exact ⟨.resetbitbuf, ⟨rfl, rfl⟩, rfl⟩
    · exact ⟨.readbits x, ⟨rfl, rfl⟩, rfl⟩
    · exact ⟨.shiftof x, ⟨rfl, rfl⟩, rfl⟩
    · exact ⟨.bitwidthof x, ⟨rfl, rfl⟩, rfl⟩
    · exact ⟨.normalize y x sh bits, ⟨by simpa [Instr.wf] using hb, rfl⟩, rfl⟩

/-- Every row's `match` is the word of its `OP` alone, its `mask` the one of its format (R55). -/
theorem row_of_mem_opcodeTable : ∀ r ∈ opcodeTable,
    r.matchBits = CmdWord.ofFields r.op 0 0 0 0 ∧
      ((r.op = 1 ∨ r.op = 3) ∧ r.maskBits = 0xFFFFFFFFFFFFFFFFFFFFFFFF ∨
        (r.op = 2 ∨ r.op = 4 ∨ r.op = 5) ∧ r.maskBits = 0xFFFFFFFF00000000FFFFFFFF ∨
        r.op = 6 ∧ r.maskBits = 0xFFFFE0C00000000000000000) := by
  decide

theorem selects_iff_decode {r : OpcodeRow} (h : r ∈ opcodeTable) :
    r.selects cw = true ↔ ∃ i, decode cw = .legal i ∧ opcodeOf i = r.op := by
  obtain ⟨hk, hm⟩ := row_of_mem_opcodeTable r h
  simp only [OpcodeRow.selects, Bool.and_eq_true, Bool.or_eq_true, decide_eq_true_eq, exists_decode_iff, hk]
  obtain ⟨ho, hm⟩ | ⟨ho, hm⟩ | ⟨ho, hm⟩ := hm
  · rw [hm, and_maskN_eq_iff]
    rcases ho with ho | ho <;> simp [ho]
  · rw [hm, and_maskA_eq_iff]
    rcases ho with ho | ho | ho <;> simp [ho]
  · rw [hm, and_maskX_eq_iff]
    simp [ho]

/-- No two rows of the opcode map have one `OP` (R55). -/
theorem row_eq_of_op_eq : ∀ r ∈ opcodeTable, ∀ q ∈ opcodeTable, r.op = q.op → r = q := by
  decide

/-- Settles O8: a word decodes to one command at most, and its `OP` names the row. -/
theorem tableRowSelectsCommand : Obligations.TableRowSelectsCommand := by
  unfold Obligations.TableRowSelectsCommand
  refine ⟨fun cw r hr => selects_iff_decode hr, fun cw r q hr hq hsr hsq => ?_, by decide⟩
  obtain ⟨i, hi, hir⟩ := (selects_iff_decode hr).1 hsr
  obtain ⟨j, hj, hjq⟩ := (selects_iff_decode hq).1 hsq
  cases hi.symm.trans hj
  exact row_eq_of_op_eq r hr q hq (hir.symm.trans hjq)

end Sys2Proof.Machine

/-! The results of the codec (R91 to R93) fit their fields, and the three commands of CHANNEL fit together (R62). -/

namespace Sys2Proof.Machine

theorem lowestFrom_lt (m : Word) {n : Nat} (hn : 0 < n) (fuel i : Nat) (h : i + fuel ≤ n) : lowestFrom m fuel i < n := by
  induction fuel generalizing i with
  | zero => exact hn
  | succ fuel ih =>
    rw [lowestFrom]
    split
    · omega
    · exact ih (i + 1) (by omega)

/-- SHIFTOF's result is an index of a bit (R91). -/
theorem shiftOf_lt (mask : Word) : shiftOf mask < 32 := by
  unfold shiftOf
  split
  · decide
  · exact lowestFrom_lt mask (by decide) 32 0 le_rfl

theorem onesBelow_le (m : Word) (n : Nat) : onesBelow m n ≤ n := by
  induction n with
  | zero => exact le_rfl
  | succ n ih =>
    rw [onesBelow]
    split <;> omega

/-- BITWIDTHOF's result is at most the width of a mask (R92). -/
theorem bitWidthOf_le (mask : Word) : bitWidthOf mask ≤ 32 := onesBelow_le mask 32

/-- NORMALIZE's result has 8 bits, whatever NORM_OVF is (R93, R97). -/
theorem normalizeValue_le (p : Config.NormOvf) (raw mask : Word) (shift : BitVec 5) (bits : BitVec 6) :
    (normalizeValue p raw mask shift bits).toNat ≤ 255 := by
  unfold normalizeValue
  split
  · decide
  · dsimp only
    split
    · next ht =>
      rw [BitVec.toNat_ofNat]
      exact (Nat.mod_le _ _).trans ht
    · rw [BitVec.toNat_setWidth_of_le (by decide)]
      exact Nat.le_of_lt_succ (BitVec.isLt _)

/-- NORMALIZE with `bits` in range (R93). -/
theorem exec_normalize_of_le {bits : BitVec 6} (h : bits.toNat ≤ 32) (raw mask : Word) (shift : BitVec 5) (s : State) :
    exec (.normalize raw mask shift bits) s = .next (s.answer (.ok (normalizeValue s.normOvf raw mask shift bits))) := by
  rw [exec, execNormalize, if_pos h]
  rfl

/-- Settles O20: both answers fit the fields of the third command, so its word decodes to it. -/
theorem channelSequenceAlwaysLegal : Obligations.ChannelSequenceAlwaysLegal := by
  intro s raw mask
  have hsh := shiftOf_lt mask
  have hw := bitWidthOf_le mask
  have hbits : ((BitVec.ofNat 32 (bitWidthOf mask)).setWidth 6).toNat ≤ 32 := by
    rw [BitVec.toNat_setWidth, BitVec.toNat_ofNat]
    omega
  refine ⟨_, _, _, rfl, ?_, rfl, ?_, decode_encode (decide_eq_true hbits), exec_normalize_of_le hbits ..,
    normalizeValue_le .., ?_, rfl⟩
  · rw [BitVec.toNat_ofNat]
    omega
  · rw [BitVec.toNat_ofNat]
    omega
  · rintro rfl
    rfl

end Sys2Proof.Machine

/-! The one response of every command (R58). -/

namespace Sys2Proof.Machine

variable {s : State} {i : Instr}

/-- The results R58 allows each command. -/
def resultInRange : Instr → Word → Prop
  | .readbit, d => d.toNat ≤ 1
  | .readbits count, d => d.toNat < 2 ^ bitCount count
  | .resetbitbuf, d => d = 0
  | .shiftof _, d => d.toNat ≤ 31
  | .bitwidthof _, d => d.toNat ≤ 32
  | .normalize _ _ _ _, d => d.toNat ≤ 255

/-- The responses R58 allows a command: `OK` of a result in range, or `ERR` of a cause of R120. -/
inductive ResponseTo (i : Instr) : Response → Prop
  | ok {d : Word} (h : resultInRange i d) : ResponseTo i (.ok d)
  | error {c : BitVec 3} (h : c = 1 ∨ c = 2) : ResponseTo i (.error c)

/-- A fault recorded has a cause of R120. -/
theorem State.Inv.fcause_of_fault (h : s.Inv) (hf : s.fault = true) : s.fcause = 1 ∨ s.fcause = 2 := by
  have hne : s.fcause ≠ 0 := fun h0 => by simp [h.faultCause.2 h0] at hf
  have := h.causeRange
  bv_omega

theorem takesBits_resultInRange (hi : i = .readbit ∨ ∃ count, i = .readbits count) (s : State) :
    resultInRange i (BitVec.ofNat 32 (s.pendingValue (bitsTaken i))) := by
  have hd : (BitVec.ofNat 32 (s.pendingValue (bitsTaken i))).toNat < 2 ^ bitsTaken i := by
    rw [BitVec.toNat_ofNat]
    exact (Nat.mod_le _ _).trans_lt (s.pendingValue_lt _)
  obtain rfl | ⟨count, rfl⟩ := hi
  · exact Nat.le_of_lt_succ hd
  · exact hd

/-- A codec command changes nothing but the response, which is one that R58 allows (R90). -/
theorem exec_codec_responds (hi : isReader i = false) (hw : i.wf = true) (s : State) :
    ∃ r, exec i s = .next (s.answer r) ∧ ResponseTo i r := by
  cases i with
  | readbit | readbits | resetbitbuf => simp [isReader] at hi
  | shiftof mask =>
    refine ⟨_, rfl, .ok ?_⟩
    have := shiftOf_lt mask
    rw [resultInRange, BitVec.toNat_ofNat]
    omega
  | bitwidthof mask =>
    refine ⟨_, rfl, .ok ?_⟩
    have := bitWidthOf_le mask
    rw [resultInRange, BitVec.toNat_ofNat]
    omega
  | normalize raw mask shift bits =>
    exact ⟨_, exec_normalize_of_le (of_decide_eq_true hw) raw mask shift s, .ok (normalizeValue_le ..)⟩

/-- Every command with operands in range gives a response that R58 allows it. -/
theorem exec_responds (hs : s.Inv) (hw : i.wf = true) :
    ∃ t r, exec i s = .next t ∧ t.rsp = some r ∧ ResponseTo i r := by
  rcases Bool.eq_false_or_eq_true (isReader i) with hr | hr
  · rcases Bool.eq_false_or_eq_true s.fault with hf | hf
    · exact ⟨_, _, exec_reader_of_fault hr hf, rfl, .error (hs.fcause_of_fault hf)⟩
    · obtain hi | rfl | hi := instr_kinds i
      · rcases le_or_gt (bitsTaken i) s.bitsLeft with hn | hn
        · exact ⟨_, _, exec_takesBits_of_enough hi hf hn, rfl, .ok (takesBits_resultInRange hi s)⟩
        · exact ⟨_, _, exec_takesBits_of_exhausted hi hf hn, rfl, .error (.inl rfl)⟩
      · exact ⟨_, _, exec_resetbitbuf_of_no_fault hf, rfl, .ok rfl⟩
      · simp [hi] at hr
  · obtain ⟨r, h, hresp⟩ := exec_codec_responds hr hw s
    exact ⟨_, r, h, rfl, hresp⟩

/-- The form of R58: no error has cause 0, and an error has a cause of R120 and data 0. -/
theorem ResponseTo.form {r : Response} (h : ResponseTo i r) :
    (r.err = false → r.cause = 0) ∧ (r.err = true → (r.cause = 1 ∨ r.cause = 2) ∧ r.data = 0) := by
  cases h with
  | ok h => simp [Response.ok]
  | error h => simpa [Response.error] using h

theorem ResponseTo.inRange {r : Response} (h : ResponseTo i r) (he : r.err = false) :
    resultInRange i r.data := by
  cases h with
  | ok h => exact h
  | error h => cases he

/-- The fields of the 36 bits on the port (R58). -/
theorem Response.pack_fields (r : Response) :
    r.pack.extractLsb 35 35 = BitVec.ofBool r.err ∧ r.pack.extractLsb 34 32 = r.cause ∧
      r.pack.extractLsb 31 0 = r.data := by
  unfold Response.pack BitVec.extractLsb
  refine ⟨?_, ?_, ?_⟩
  · rw [BitVec.extractLsb'_append_eq_of_le (by decide), BitVec.extractLsb'_append_eq_of_le (by decide)]
    exact BitVec.extractLsb'_eq_self
  · rw [BitVec.extractLsb'_append_eq_of_le (by decide)]
    exact BitVec.extractLsb'_append_eq_right
  · exact BitVec.extractLsb'_append_eq_right

/-- Settles O41: the response of the command decoded, or the one of IllegalCommand. -/
theorem everyCommandAnswered : Obligations.EveryCommandAnswered := by
  unfold Obligations.EveryCommandAnswered
  refine ⟨fun s cw rest hin hs => ?_, Response.pack_fields⟩
  rw [step_command hin]
  cases hd : decode cw with
  | illegal why =>
    exact ⟨_, _, runCommand_of_illegal hd _, rfl, by simp [Response.error, Cause.code]⟩
  | legal i =>
    obtain ⟨t, r, ht, hr, hresp⟩ := exec_responds (hs.setInputs rest) (wf_of_decode hd)
    obtain ⟨hok, herr⟩ := hresp.form
    refine ⟨t, r, (runCommand_of_legal hd _).trans ht, hr, hok, herr, fun j hj he => ?_⟩
    cases hj
    have hrange := hresp.inRange he
    refine ⟨?_, ?_, ?_, ?_, ?_, ?_⟩ <;> intros <;> subst i <;> exact hrange

end Sys2Proof.Machine

/-! The reader commands by their next states (spec/40_bitstream_reader.md R71 to R73). -/

namespace Sys2Proof.Machine

variable {s : State} {i j : Instr}

/-- The signed count, clamped (R54, R72). -/
theorem bitCount_eq_clamp (count : Word) : (bitCount count : Int) = max 1 (min count.toInt 32) := by
  simp only [bitCount, clamp, Config.minCount, Config.maxCount]
  split_ifs <;> omega

/-- Bits that are all in the buffer pull no byte (R36). -/
theorem State.pulls_eq_zero_iff {n : Nat} : s.pulls n = 0 ↔ n ≤ s.cnt := by
  unfold State.pulls
  omega

/-- Entry of the first fault of a session: the cause is recorded and answered (R124). -/
theorem takeFault_of_no_fault (hf : s.fault = false) (c : Cause) : takeFault c s =
    { s with fault := true, fcause := c.code, rsp := some ⟨true, c.code, 0⟩ } := by
  apply State.eq_of_fields <;> simp [hf, Response.error]

/-- READBIT with a bit left answers the first one pending (R71). -/
theorem exec_readbit_of_enough (hf : s.fault = false) (h : 1 ≤ s.bitsLeft) :
    exec .readbit s = .next ((s.afterBits 1).answer (.ok (bitWord (s.pendingBit 0)))) := by
  rw [exec_takesBits_of_enough (.inl rfl) hf h, bitWord_eq]
  simp [bitsTaken, State.pendingValue]

/-- READBIT with a bit in the buffer: no byte is pulled (R71). -/
theorem exec_readbit_of_buffered (hf : s.fault = false) (hc : 0 < s.cnt) :
    exec .readbit s = .next { s with
      cnt := s.cnt - 1
      rsp := some (.ok (bitWord (s.buf.getLsbD (s.cnt - 1)))) } := by
  have hp := State.pulls_one_of_pos hc
  rw [exec_readbit_of_enough hf (Nat.le_add_right_of_le hc)]
  congr 1
  apply State.eq_of_fields <;> simp [hp, State.pendingBit, hc]

/-- READBIT with an exhausted buffer and a byte to pull: the byte's bit 7 (R71). -/
theorem exec_readbit_of_fresh (hf : s.fault = false) (hc : s.cnt = 0) (hp : s.pos < s.len) :
    exec .readbit s = .next { s with
      buf := s.mem.read s.pos
      cnt := 7
      pos := s.pos + 1
      rsp := some (.ok (bitWord ((s.mem.read s.pos).getLsbD 7))) } := by
  have h1 := State.pulls_one_of_zero hc
  have hleft : 1 ≤ s.bitsLeft := by
    unfold State.bitsLeft
    omega
  rw [exec_readbit_of_enough hf hleft]
  congr 1
  apply State.eq_of_fields <;> simp [h1, hc, State.pendingBit]

/-- READBIT with no bit left enters the fault and takes nothing (R71). -/
theorem exec_readbit_of_none (hf : s.fault = false) (h : s.bitsLeft = 0) :
    exec .readbit s = .next { s with fault := true, fcause := 1, rsp := some ⟨true, 1, 0⟩ } := by
  rw [exec_takesBits_of_exhausted (.inl rfl) hf (Nat.lt_one_iff.2 h), State.drained_of_empty h,
    takeFault_of_no_fault hf]
  rfl

theorem isReader_of_takesBits (hi : i = .readbit ∨ ∃ count, i = .readbits count) : isReader i = true := by
  obtain rfl | ⟨count, rfl⟩ := hi <;> rfl

/-- Two commands that take the same number of bits have one meaning: of READBIT and READBITS only that number
matters (R72). -/
theorem exec_takesBits_congr (hi : i = .readbit ∨ ∃ count, i = .readbits count)
    (hj : j = .readbit ∨ ∃ count, j = .readbits count) (h : bitsTaken i = bitsTaken j) (s : State) :
    exec i s = exec j s := by
  rcases Bool.eq_false_or_eq_true s.fault with hf | hf
  · rw [exec_reader_of_fault (isReader_of_takesBits hi) hf, exec_reader_of_fault (isReader_of_takesBits hj) hf]
  · rcases le_or_gt (bitsTaken i) s.bitsLeft with hn | hn
    · rw [exec_takesBits_of_enough hi hf hn, exec_takesBits_of_enough hj hf (h ▸ hn), h]
    · rw [exec_takesBits_of_exhausted hi hf hn, exec_takesBits_of_exhausted hj hf (h ▸ hn)]

theorem exec_readbits_congr {count count' : Word} (h : bitCount count = bitCount count') (s : State) :
    exec (.readbits count) s = exec (.readbits count') s :=
  exec_takesBits_congr (.inr ⟨count, rfl⟩) (.inr ⟨count', rfl⟩) h s

/-- A command word from its parts and from its fields: the control part is the fields above the operands (R52). -/
theorem cmdOfParts_eq_ofFields {ctl x y : Word} {o : BitVec 4} {sh : BitVec 5} {bits : BitVec 6}
    (h : ctl = 0#4 ++ o ++ 0#11 ++ sh ++ 0#2 ++ bits) : cmdOfParts ctl x y = CmdWord.ofFields o sh bits x y := by
  rw [h]
  rfl

/-- The word of READBITS (R72). -/
theorem decode_readbits_word (count : Word) : decode (cmdOfParts 0x02000000 count 0) = .legal (.readbits count) := by
  have hword : cmdOfParts 0x02000000 count 0 = encode (.readbits count) :=
    cmdOfParts_eq_ofFields (show (0x02000000 : Word) = 0#4 ++ 2#4 ++ 0#11 ++ 0#5 ++ 0#2 ++ 0#6 by decide)
  rw [hword]
  exact decode_encode rfl

/-- Settles O10: the shared rule of the bit-taking commands at the clamped count. -/
theorem readbitsResult : Obligations.ReadbitsResult := by
  intro s count
  have hcount := bitCount_eq_clamp count
  refine ⟨decode_readbits_word count, bitCount count, by omega, by omega, by omega,
    s.pendingValue_lt _, fun hf hn => ?_, fun hf hn => ?_, exec_reader_of_fault rfl⟩
  · rw [exec_takesBits_of_enough (.inr ⟨count, rfl⟩) hf hn]
    simp only [State.afterBits, State.pulls_eq_zero_iff]
    rfl
  · rw [exec_takesBits_of_exhausted (.inr ⟨count, rfl⟩) hf hn, takeFault_of_no_fault (s := s.drained) hf]
    rfl

/-- Settles O9: the bit is in the buffer, in a byte to pull, or nowhere. -/
theorem readbitResult : Obligations.ReadbitResult := by
  refine ⟨by decide, fun s => ⟨exec_readbit_of_buffered, exec_readbit_of_fresh, fun hf hc hp => ?_,
    exec_reader_of_fault rfl⟩⟩
  exact exec_readbit_of_none hf (by unfold State.bitsLeft; omega)

/-- Settles O11: idempotent because a refusal changes nothing but the response, and an emptied buffer stays so. -/
theorem resetbitbufResult : Obligations.ResetbitbufResult := by
  refine ⟨by decide, fun s => ⟨exec_resetbitbuf_of_no_fault, exec_reader_of_fault rfl, ?_⟩⟩
  rcases Bool.eq_false_or_eq_true s.fault with hf | hf
  · exact ⟨_, exec_reader_of_fault rfl hf, exec_reader_of_fault rfl hf⟩
  · exact ⟨_, exec_resetbitbuf_of_no_fault hf, exec_resetbitbuf_of_no_fault hf⟩

/-- Settles O28: a word with bit 31 set is a negative count, and equal clamped counts have one meaning. -/
theorem readbitsOfOneIsReadbit : Obligations.ReadbitsOfOneIsReadbit := by
  have hone (s : State) (count : Word) (h : count.toInt ≤ 1) : exec (.readbits count) s = exec .readbit s := by
    have hcount := bitCount_eq_clamp count
    exact exec_takesBits_congr (.inr ⟨count, rfl⟩) (.inl rfl) (show bitCount count = 1 by omega) s
  refine ⟨hone, fun s count h => hone s count ?_, fun s count h => exec_readbits_congr ?_ s⟩
  · have hneg : count.toInt < 0 := of_decide_eq_true (BitVec.msb_eq_toInt.symm.trans h)
    omega
  · have hcount := bitCount_eq_clamp count
    have h32 : bitCount 32 = 32 := by decide
    omega

end Sys2Proof.Machine

/-! Runs of reads: a run that takes `n` bits in all ends where taking `n` bits at once does, but for the response
(R76, R77). -/

namespace Sys2Proof.Machine

variable {s t : State} {i : Instr} {is : List Instr} {n : Nat}

theorem State.afterBits_zero (s : State) : s.afterBits 0 = s := by
  have hp : s.pulls 0 = 0 := State.pulls_eq_zero_iff.2 (Nat.zero_le _)
  apply State.eq_of_fields <;> simp [hp]

/-- Taking `m` bits and then `n` is taking `m + n`. -/
theorem State.afterBits_afterBits (s : State) (m n : Nat) : (s.afterBits m).afterBits n = s.afterBits (m + n) := by
  induction m generalizing s with
  | zero => rw [State.afterBits_zero, Nat.zero_add]
  | succ m ih => rw [← State.afterBits_afterBits_one, ih, State.afterBits_afterBits_one, Nat.add_right_comm]

theorem State.bitsLeft_afterBits (h : n ≤ s.bitsLeft) : (s.afterBits n).bitsLeft = s.bitsLeft - n := by
  have hp := State.pulls_le_of_le_bitsLeft h
  simp only [State.bitsLeft, State.pulls, State.afterBits_cnt, State.afterBits_pos, State.afterBits_len] at *
  omega

/-- Draining the source after some bits were taken ends where draining it at once does. -/
theorem State.drained_afterBits (h : n ≤ s.bitsLeft) : (s.afterBits n).drained = s.drained := by
  induction n generalizing s with
  | zero => rw [State.afterBits_zero]
  | succ n ih =>
    have hleft := State.bitsLeft_afterBits_one (s := s) (by omega)
    rw [← State.afterBits_afterBits_one, ih (by omega), State.drained_afterBits_one (by omega)]

theorem runInstrs_cons (h : exec i s = .next t) (is : List Instr) : runInstrs (i :: is) s = runInstrs is t := by
  rw [runInstrs, h]

/-- Reader commands after a fault change the response only (R74). -/
theorem runInstrs_reader_of_fault (his : ∀ i ∈ is, isReader i = true) (hf : s.fault = true) :
    ∃ r, runInstrs is s = some { s with rsp := r } := by
  induction is generalizing s with
  | nil => exact ⟨s.rsp, rfl⟩
  | cons i is ih =>
    obtain ⟨hi, his⟩ := List.forall_mem_cons.1 his
    rw [runInstrs_cons (exec_reader_of_fault hi hf)]
    exact ih his hf

/-- A run of reads with enough bits left. -/
theorem runInstrs_takesBits_of_enough (his : ∀ i ∈ is, i = .readbit ∨ ∃ count, i = .readbits count)
    (hf : s.fault = false) (hn : (is.map bitsTaken).sum ≤ s.bitsLeft) :
    ∃ r, runInstrs is s = some { s.afterBits (is.map bitsTaken).sum with rsp := r } := by
  induction is generalizing s with
  | nil => exact ⟨s.rsp, congrArg some s.afterBits_zero.symm⟩
  | cons i is ih =>
    obtain ⟨hi, his⟩ := List.forall_mem_cons.1 his
    rw [List.map_cons, List.sum_cons] at hn ⊢
    have hfirst : bitsTaken i ≤ s.bitsLeft := by omega
    have hrest : (is.map bitsTaken).sum ≤ (s.afterBits (bitsTaken i)).bitsLeft := by
      rw [State.bitsLeft_afterBits hfirst]
      omega
    rw [runInstrs_cons (exec_takesBits_of_enough hi hf hfirst), ← State.afterBits_afterBits]
    exact ih his hf hrest

/-- A run of reads with too few bits left drains the source and records the fault. -/
theorem runInstrs_takesBits_of_exhausted (his : ∀ i ∈ is, i = .readbit ∨ ∃ count, i = .readbits count)
    (hf : s.fault = false) (hn : s.bitsLeft < (is.map bitsTaken).sum) :
    ∃ r, runInstrs is s = some { takeFault .unexpectedEndOfData s.drained with rsp := r } := by
  induction is generalizing s with
  | nil => simp at hn
  | cons i is ih =>
    obtain ⟨hi, his⟩ := List.forall_mem_cons.1 his
    rw [List.map_cons, List.sum_cons] at hn
    rcases le_or_gt (bitsTaken i) s.bitsLeft with hfirst | hfirst
    · have hrest : (s.afterBits (bitsTaken i)).bitsLeft < (is.map bitsTaken).sum := by
        rw [State.bitsLeft_afterBits hfirst]
        omega
      rw [runInstrs_cons (exec_takesBits_of_enough hi hf hfirst), ← State.drained_afterBits hfirst]
      exact ih his hf hrest
    · rw [runInstrs_cons (exec_takesBits_of_exhausted hi hf hfirst)]
      exact runInstrs_reader_of_fault (fun j hj => isReader_of_takesBits (his j hj)) rfl

/-- Settles O30: the bytes pulled for the bits taken in all, from an exhausted buffer. -/
theorem bytesConsumedByReaderRun : Obligations.BytesConsumedByReaderRun := by
  intro s t is hf hc his hrun ht
  rcases le_or_gt (is.map bitsTaken).sum s.bitsLeft with hn | hn
  · obtain ⟨r, hr⟩ := runInstrs_takesBits_of_enough his hf hn
    cases hr.symm.trans hrun
    simp [State.pulls, hc]
  · obtain ⟨r, hr⟩ := runInstrs_takesBits_of_exhausted his hf hn
    cases hr.symm.trans hrun
    cases ht

theorem takesBits_of_mem_replicate (h : i ∈ List.replicate n .readbit) :
    i = .readbit ∨ ∃ count, i = .readbits count :=
  .inl (List.eq_of_mem_replicate h)

theorem sum_bitsTaken_replicate_readbit (n : Nat) : ((List.replicate n .readbit).map bitsTaken).sum = n := by
  simp [bitsTaken]

theorem runInstrs_readbit_of_enough (hf : s.fault = false) (hn : n ≤ s.bitsLeft) :
    ∃ r, runInstrs (List.replicate n .readbit) s = some { s.afterBits n with rsp := r } := by
  have h := runInstrs_takesBits_of_enough (fun _ => takesBits_of_mem_replicate (n := n)) hf
  rw [sum_bitsTaken_replicate_readbit] at h
  exact h hn

theorem runInstrs_readbit_of_exhausted (hf : s.fault = false) (hn : s.bitsLeft < n) :
    ∃ r, runInstrs (List.replicate n .readbit) s =
      some { takeFault .unexpectedEndOfData s.drained with rsp := r } := by
  have h := runInstrs_takesBits_of_exhausted (fun _ => takesBits_of_mem_replicate (n := n)) hf
  rw [sum_bitsTaken_replicate_readbit] at h
  exact h hn

/-- READBITs in a row answer the pending bits in order. -/
theorem responsesOf_readbit_of_enough (hf : s.fault = false) (hn : n ≤ s.bitsLeft) :
    responsesOf (List.replicate n .readbit) s =
      (List.range n).map fun k => some (.ok (bitWord (s.pendingBit k))) := by
  induction n generalizing s with
  | zero => rfl
  | succ n ih =>
    have hleft := State.bitsLeft_afterBits_one (s := s) (by omega)
    have hrest := ih (s := (s.afterBits 1).answer (.ok (bitWord (s.pendingBit 0)))) hf
      (show n ≤ (s.afterBits 1).bitsLeft by omega)
    rw [List.replicate_succ, responsesOf, exec_readbit_of_enough hf (by omega), List.range_succ_eq_map,
      List.map_cons, List.map_map]
    refine congrArg _ (hrest.trans (List.map_congr_left fun k _ => ?_))
    exact congrArg (fun b => some (Response.ok (bitWord b))) (s.pendingBit_afterBits_one k)

theorem dataOf_ok_bitWord (b : Bool) : dataOf (some (.ok (bitWord b))) = b.toNat := by
  cases b <;> rfl

/-- The number of the next `n` bits as a sum over its binary digits. -/
theorem State.pendingValue_eq_sum (s : State) (n : Nat) :
    s.pendingValue n = ∑ k ∈ Finset.range n, (s.pendingBit k).toNat * 2 ^ (n - 1 - k) := by
  induction n with
  | zero => rfl
  | succ n ih =>
    rw [State.pendingValue, Finset.sum_range_succ, ih, Finset.mul_sum]
    congr 1
    · refine Finset.sum_congr rfl fun k hk => ?_
      have hkn := Finset.mem_range.1 hk
      rw [show n + 1 - 1 - k = n - 1 - k + 1 by omega, pow_succ]
      ring
    · simp

/-- The sum of R76 over the answers of `n` READBITs is the number of the next `n` bits. -/
theorem sum_dataOf_responsesOf_readbit (hf : s.fault = false) (hn : n ≤ s.bitsLeft) :
    ∑ k ∈ Finset.range n, dataOf ((responsesOf (List.replicate n .readbit) s).getD k none) * 2 ^ (n - 1 - k) =
      s.pendingValue n := by
  rw [responsesOf_readbit_of_enough hf hn, State.pendingValue_eq_sum]
  refine Finset.sum_congr rfl fun k hk => ?_
  have hkn := Finset.mem_range.1 hk
  simp [hkn, dataOf_ok_bitWord]

/-- Settles O27: both runs take the same bits, or both drain the source. -/
theorem readbitsIsRepeatedReadbit : Obligations.ReadbitsIsRepeatedReadbit := by
  intro s count hf
  rcases le_or_gt (bitCount count) s.bitsLeft with hn | hn
  · obtain ⟨r, hr⟩ := runInstrs_readbit_of_enough hf hn
    refine ⟨_, _, exec_takesBits_of_enough (.inr ⟨count, rfl⟩) hf hn, hr, rfl, fun _ => ?_⟩
    rw [sum_dataOf_responsesOf_readbit hf hn]
    rfl
  · obtain ⟨r, hr⟩ := runInstrs_readbit_of_exhausted hf hn
    exact ⟨_, _, exec_takesBits_of_exhausted (.inr ⟨count, rfl⟩) hf hn, hr, rfl, nofun⟩

/-- `8 * k` bits taken from an exhausted buffer pull `k` bytes and leave it exhausted. -/
theorem runInstrs_readbit_bytes {k : Nat} (hf : s.fault = false) (hc : s.cnt = 0) (hp : s.pos + k ≤ s.len) :
    ∃ t, runInstrs (List.replicate (8 * k) .readbit) s = some t ∧ t.fault = false ∧ t.cnt = 0 ∧
      t.pos = s.pos + k := by
  have hpulls : s.pulls (8 * k) = k := by
    simp only [State.pulls, hc]
    omega
  obtain ⟨r, hr⟩ := runInstrs_readbit_of_enough (n := 8 * k) hf (by unfold State.bitsLeft; omega)
  exact ⟨_, hr, hf, by simp [hpulls, hc], by simp [hpulls]⟩

/-- Three bits of a byte, RESETBITBUF, and a READBIT that pulls the next byte. -/
theorem runInstrs_reset_pulls_fresh (hf : s.fault = false) (hc : s.cnt = 0) (hp : s.pos + 2 ≤ s.len) :
    runInstrs [.readbit, .readbit, .readbit, .resetbitbuf, .readbit] s = some { s with
      buf := s.mem.read (s.pos + 1)
      cnt := 7
      pos := s.pos + 2
      rsp := some (.ok (bitWord ((s.mem.read (s.pos + 1)).getLsbD 7))) } := by
  rw [runInstrs_cons (exec_readbit_of_fresh hf hc (by omega)),
    runInstrs_cons (exec_readbit_of_buffered (by exact hf) (by simp)),
    runInstrs_cons (exec_readbit_of_buffered (by exact hf) (by simp)),
    runInstrs_cons (exec_resetbitbuf_of_no_fault (by exact hf)),
    runInstrs_cons (exec_readbit_of_fresh (by exact hf) rfl (by exact hp))]
  rfl

/-- Settles O29: equal clamped counts, whole bytes, and a byte given up part way. -/
theorem readerDocumentProperties : Obligations.ReaderDocumentProperties := by
  refine ⟨fun s => ⟨exec_readbits_congr (by decide) s, exec_readbits_congr (by decide) s⟩,
    fun s k => runInstrs_readbit_bytes, fun s hf hc hp => ?_⟩
  exact ⟨_, runInstrs_reset_pulls_fresh hf hc hp, rfl, rfl, rfl, rfl⟩

end Sys2Proof.Machine

/-! The reader on the source as one string of bits (R75), while only the block moves the cursor. -/

namespace Sys2Proof.Machine

variable {s : State}

/-- The bit address and the bits left make up the source. -/
theorem State.Synced.bitAddress_add_bitsLeft (h : s.Synced) : s.bitAddress + s.bitsLeft = 8 * s.len := by
  obtain ⟨hc, hp, hb⟩ := h
  unfold State.bitAddress State.bitsLeft
  omega

theorem State.Synced.bitAddress_afterBits (h : s.Synced) {n : Nat} (hn : n ≤ s.bitsLeft) :
    (s.afterBits n).bitAddress = s.bitAddress + n := by
  have hs := h.bitAddress_add_bitsLeft
  have ht := (h.afterBits hn).bitAddress_add_bitsLeft
  rw [State.bitsLeft_afterBits hn, State.afterBits_len] at ht
  omega

/-- The pending bits are the source's bits from the bit address on: those in the buffer lie in the byte before the
cursor. -/
theorem State.Synced.pendingBit_eq (h : s.Synced) (k : Nat) : s.pendingBit k = s.sourceBit (s.bitAddress + k) := by
  have hc := h.cntRange
  unfold State.pendingBit State.sourceBit State.bitAddress
  split
  · next hk =>
    obtain ⟨hp, hb⟩ := h.bufIsSource (by omega)
    have hbyte : (8 * s.pos - s.cnt + k) / 8 = s.pos - 1 := by omega
    have hbit : 7 - (8 * s.pos - s.cnt + k) % 8 = s.cnt - 1 - k := by omega
    rw [hb, hbyte, hbit]
  · next hk =>
    have hp : s.cnt ≤ 8 * s.pos := by
      rcases Nat.eq_zero_or_pos s.cnt with h0 | h0
      · omega
      · have := (h.bufIsSource h0).1
        omega
    have haddr : 8 * s.pos - s.cnt + k = 8 * s.pos + (k - s.cnt) := by omega
    have hbyte : (8 * s.pos + (k - s.cnt)) / 8 = s.pos + (k - s.cnt) / 8 := by omega
    rw [haddr, hbyte, Nat.mul_add_mod]

theorem State.Synced.pendingValue_eq (h : s.Synced) (n : Nat) : s.pendingValue n = s.sourceValue s.bitAddress n := by
  induction n with
  | zero => rfl
  | succ n ih => rw [State.pendingValue, State.sourceValue, ih, h.pendingBit_eq]

/-- Settles O31: the shared rules of the reader commands, with the pending bits read off the source. -/
theorem bitAddressView : Obligations.BitAddressView := by
  intro s hf h
  have hq := h.bitAddress_add_bitsLeft
  refine ⟨fun hlt => ?_, fun heq => ?_, fun count hn => ?_, fun count hn => ?_, ?_⟩
  · have hn : 1 ≤ s.bitsLeft := by omega
    refine ⟨_, exec_readbit_of_enough hf hn, h.bitAddress_afterBits hn, (h.afterBits hn).answer _, ?_⟩
    rw [h.pendingBit_eq]
    rfl
  · exact exec_readbit_of_none hf (by omega)
  · have hn : bitCount count ≤ s.bitsLeft := by omega
    refine ⟨_, exec_takesBits_of_enough (.inr ⟨count, rfl⟩) hf hn, h.bitAddress_afterBits hn,
      (h.afterBits hn).answer _, ?_⟩
    rw [← h.pendingValue_eq]
    rfl
  · have hn : s.bitsLeft < bitCount count := by omega
    have hpos : s.drained.pos = s.len := max_eq_right h.posRange
    rw [exec_takesBits_of_exhausted (.inr ⟨count, rfl⟩) hf hn, takeFault_of_no_fault (s := s.drained) hf]
    exact ⟨_, rfl, congrArg (8 * ·) hpos, rfl, hpos, rfl, rfl, rfl⟩
  · have hc := h.cntRange
    refine ⟨_, exec_resetbitbuf_of_no_fault hf, rfl, Nat.sub_le _ _, ?_⟩
    simp [State.bitAddress]
    omega

end Sys2Proof.Machine

/-! The answers of SHIFTOF and BITWIDTHOF (R91, R92), of any mask and of a contiguous one (R95). -/

namespace Sys2Proof.Machine

/-- The search from `i` on stops at the first bit that is 1. -/
theorem lowestFrom_eq_of_first {m : Word} {d : Nat} (hd : m.getLsbD d = true) (hmin : ∀ j, j < d → m.getLsbD j = false)
    {fuel i : Nat} (hi : i ≤ d) (hfuel : d < i + fuel) : lowestFrom m fuel i = d := by
  induction fuel generalizing i with
  | zero => omega
  | succ fuel ih =>
    rw [lowestFrom]
    rcases hi.eq_or_lt with rfl | hlt
    · rw [if_pos hd]
    · rw [if_neg (by simp [hmin i hlt])]
      exact ih hlt (by omega)

/-- SHIFTOF's result is the index of the lowest bit that is 1 (R91). -/
theorem shiftOf_eq_of_first {mask : Word} {d : Nat} (hd : mask.getLsbD d = true)
    (hmin : ∀ j, j < d → mask.getLsbD j = false) : shiftOf mask = d := by
  have hne : mask ≠ 0 := by
    rintro rfl
    simp at hd
  have hlt : d < 32 := BitVec.lt_of_getLsbD hd
  rw [shiftOf, if_neg hne, lowestFrom_eq_of_first hd hmin d.zero_le (by omega)]

/-- A mask other than 0 has a lowest bit that is 1. -/
theorem exists_first_bit {mask : Word} (h : mask ≠ 0) :
    ∃ d, mask.getLsbD d = true ∧ ∀ j, j < d → mask.getLsbD j = false := by
  have hex : ∃ d, mask.getLsbD d = true := by
    by_contra hnone
    push Not at hnone
    exact h (BitVec.eq_of_getLsbD_eq fun i _ => by simpa using hnone i)
  exact ⟨Nat.find hex, Nat.find_spec hex, fun j hj => by simpa using Nat.find_min hex hj⟩

/-- Settles O13: the word is the encoder's, and the answer the first bit that is 1. -/
theorem shiftofResult : Obligations.ShiftofResult := by
  intro s mask
  have hword : cmdOfParts 0x04000000 mask 0 = encode (.shiftof mask) :=
    cmdOfParts_eq_ofFields (show (0x04000000 : Word) = 0#4 ++ 4#4 ++ 0#11 ++ 0#5 ++ 0#2 ++ 0#6 by decide)
  refine ⟨hword ▸ decode_encode rfl, shiftOf mask, rfl, fun h => if_pos h, fun h => ?_⟩
  obtain ⟨d, hd, hmin⟩ := exists_first_bit h
  rw [shiftOf_eq_of_first hd hmin]
  exact ⟨BitVec.lt_of_getLsbD hd, hd, hmin⟩

/-- BITWIDTHOF counts the indices whose bit is 1 (R92). -/
theorem onesBelow_eq_card (m : Word) (n : Nat) :
    onesBelow m n = (Finset.univ.filter fun j : Fin n => m.getLsbD j = true).card := by
  induction n with
  | zero => rfl
  | succ n ih =>
    rw [onesBelow, ih, Finset.card_filter, Finset.card_filter, Fin.sum_univ_castSucc]
    rfl

/-- The contiguous mask of `w` ones above `k` zeros (R95). -/
def contiguousMask (w k : Nat) : Word := BitVec.ofNat 32 ((2 ^ w - 1) * 2 ^ k)

section contiguous

variable {w k : Nat}

theorem contiguousMask_toNat (hk : k + w ≤ 32) : (contiguousMask w k).toNat = (2 ^ w - 1) * 2 ^ k := by
  have hlt : (2 ^ w - 1) * 2 ^ k < 2 ^ 32 :=
    calc (2 ^ w - 1) * 2 ^ k < 2 ^ w * 2 ^ k :=
          Nat.mul_lt_mul_of_pos_right (Nat.sub_lt (Nat.two_pow_pos w) Nat.one_pos) (Nat.two_pow_pos k)
      _ = 2 ^ (k + w) := by rw [Nat.add_comm, pow_add]
      _ ≤ 2 ^ 32 := Nat.pow_le_pow_right Nat.two_pos hk
  rw [contiguousMask, BitVec.toNat_ofNat, Nat.mod_eq_of_lt hlt]

theorem contiguousMask_getLsbD (hk : k + w ≤ 32) (j : Nat) :
    (contiguousMask w k).getLsbD j = decide (k ≤ j ∧ j < k + w) := by
  rw [BitVec.getLsbD, contiguousMask_toNat hk, Nat.testBit_mul_two_pow, Nat.testBit_two_pow_sub_one, Bool.eq_iff_iff]
  simp only [Bool.and_eq_true, decide_eq_true_eq]
  omega

/-- SHIFTOF of a contiguous mask is its shift (R95 item 1). -/
theorem shiftOf_contiguousMask (hw : 1 ≤ w) (hk : k + w ≤ 32) : shiftOf (contiguousMask w k) = k := by
  apply shiftOf_eq_of_first
  · rw [contiguousMask_getLsbD hk]
    exact decide_eq_true (by omega)
  · intro j hj
    rw [contiguousMask_getLsbD hk]
    exact decide_eq_false (by omega)

theorem onesBelow_contiguousMask (hk : k + w ≤ 32) (n : Nat) :
    onesBelow (contiguousMask w k) n = min n (k + w) - k := by
  induction n with
  | zero => simp [onesBelow]
  | succ n ih =>
    rw [onesBelow, ih, contiguousMask_getLsbD hk]
    simp only [decide_eq_true_eq]
    split <;> omega

/-- BITWIDTHOF of a contiguous mask is its width (R92, R95 item 1). -/
theorem bitWidthOf_contiguousMask (hk : k + w ≤ 32) : bitWidthOf (contiguousMask w k) = w := by
  rw [bitWidthOf, onesBelow_contiguousMask hk]
  omega

end contiguous

theorem exec_shiftof (mask : Word) (s : State) :
    exec (.shiftof mask) s = .next { s with rsp := some ⟨false, 0, BitVec.ofNat 32 (shiftOf mask)⟩ } := rfl

theorem exec_bitwidthof (mask : Word) (s : State) :
    exec (.bitwidthof mask) s = .next { s with rsp := some ⟨false, 0, BitVec.ofNat 32 (bitWidthOf mask)⟩ } := rfl

theorem exec_shiftof_contiguousMask {w k : Nat} (hw : 1 ≤ w) (hk : k + w ≤ 32) (s : State) :
    exec (.shiftof (contiguousMask w k)) s = .next { s with rsp := some ⟨false, 0, BitVec.ofNat 32 k⟩ } := by
  rw [exec_shiftof, shiftOf_contiguousMask hw hk]

theorem exec_bitwidthof_contiguousMask {w k : Nat} (hk : k + w ≤ 32) (s : State) :
    exec (.bitwidthof (contiguousMask w k)) s = .next { s with rsp := some ⟨false, 0, BitVec.ofNat 32 w⟩ } := by
  rw [exec_bitwidthof, bitWidthOf_contiguousMask hk]

/-- Settles O14: the word is the encoder's, and the answer the count of the bits that are 1. -/
theorem bitwidthofResult : Obligations.BitwidthofResult := by
  refine ⟨fun s mask => ?_, fun s w k _ hk => exec_bitwidthof_contiguousMask hk s⟩
  have hword : cmdOfParts 0x05000000 mask 0 = encode (.bitwidthof mask) :=
    cmdOfParts_eq_ofFields (show (0x05000000 : Word) = 0#4 ++ 5#4 ++ 0#11 ++ 0#5 ++ 0#2 ++ 0#6 by decide)
  rw [← onesBelow_eq_card]
  exact ⟨hword ▸ decode_encode rfl, bitWidthOf_le mask, exec_bitwidthof mask s⟩

end Sys2Proof.Machine

/-! The answer of NORMALIZE by its quotient (R93 to R97). -/

namespace Sys2Proof.Machine

variable {raw mask : Word} {shift : BitVec 5} {bits : BitVec 6} {s : State} {t : Nat}

/-- The quotient of R93 as the statements write it: the shift is a division. -/
theorem rescale_extractChannel (raw mask : Word) (shift : BitVec 5) (n : Nat) :
    rescale (extractChannel raw mask shift) n = (raw &&& mask).toNat / 2 ^ shift.toNat * 255 / (2 ^ n - 1) := by
  rw [rescale, extractChannel, BitVec.toNat_ushiftRight, Nat.shiftRight_eq_div_pow]

/-- The quotient has 40 bits (R94). -/
theorem rescale_lt (v : Word) (n : Nat) : rescale v n < 2 ^ 40 :=
  calc rescale v n ≤ v.toNat * 255 := Nat.div_le_self _ _
    _ < 2 ^ 40 := by omega

/-- NORMALIZE of an absent mask (R93). -/
theorem exec_normalize_of_zero (hb : bits.toNat = 0) :
    exec (.normalize raw mask shift bits) s = .next { s with rsp := some ⟨false, 0, 255⟩ } := by
  have h0 : bits = 0 := BitVec.eq_of_toNat_eq hb
  rw [exec_normalize_of_le (by omega), normalizeValue, if_pos h0]
  rfl

section quotient

variable (h1 : 1 ≤ bits.toNat) (h32 : bits.toNat ≤ 32)
  (ht : t = (raw &&& mask).toNat / 2 ^ shift.toNat * 255 / (2 ^ bits.toNat - 1))
include h1 h32 ht

/-- NORMALIZE by its quotient: in range it is the answer, and above 255 NORM_OVF of it is (R93, R97). -/
theorem exec_normalize_of_quotient : exec (.normalize raw mask shift bits) s = .next { s with
    rsp := some ⟨false, 0,
      if t ≤ 255 then BitVec.ofNat 32 t else (normOvfOf s.normOvf (BitVec.ofNat 40 t)).setWidth 32⟩ } := by
  have hne : bits ≠ 0 := by
    rintro rfl
    simp at h1
  rw [exec_normalize_of_le h32, normalizeValue, if_neg hne, rescale_extractChannel, ← ht]
  rfl

theorem exec_normalize_of_quotient_le (h : t ≤ 255) : exec (.normalize raw mask shift bits) s =
    .next { s with rsp := some ⟨false, 0, BitVec.ofNat 32 t⟩ } := by
  rw [exec_normalize_of_quotient h1 h32 ht, if_pos h]

theorem exec_normalize_of_lt_quotient (h : 255 < t) : exec (.normalize raw mask shift bits) s =
    .next { s with rsp := some ⟨false, 0, (normOvfOf s.normOvf (BitVec.ofNat 40 t)).setWidth 32⟩ } := by
  rw [exec_normalize_of_quotient h1 h32 ht, if_neg (Nat.not_le_of_lt h)]

end quotient

/-- The spec's own NORM_OVF is the quotient modulo 256 (R97). -/
theorem normOvfOf_truncate_toNat (t : Nat) : (normOvfOf .truncate (BitVec.ofNat 40 t)).toNat = t % 256 := by
  rw [normOvfOf, BitVec.toNat_setWidth, BitVec.toNat_ofNat]
  omega

/-- The control part of NORMALIZE's word: `OP`, `S` and `W` at the bits of R52. -/
theorem normalize_control (shift : BitVec 5) (bits : BitVec 6) :
    (0x06000000 ||| (shift.setWidth 32 <<< 8) ||| bits.setWidth 32 : Word) =
      0#4 ++ 6#4 ++ 0#11 ++ shift ++ 0#2 ++ bits := by
  have hshift : (shift.setWidth 32 <<< 8).toNat = shift.toNat <<< 8 := by
    simp only [BitVec.toNat_shiftLeft, BitVec.toNat_setWidth_of_le (show 5 ≤ 32 by decide), Nat.shiftLeft_eq]
    omega
  have hbits : (bits.setWidth 32).toNat = bits.toNat := BitVec.toNat_setWidth_of_le (by decide)
  have hfields : (0#4 ++ 6#4 ++ 0#11 ++ shift ++ 0#2 ++ bits).toNat =
      0x06000000 ||| shift.toNat <<< 8 ||| bits.toNat := by
    simp only [BitVec.toNat_append, Nat.shiftLeft_or_distrib, ← Nat.shiftLeft_add]
    simp
  apply BitVec.eq_of_toNat_eq
  rw [BitVec.toNat_or, BitVec.toNat_or, hshift, hbits]
  exact hfields.symm

/-- Settles O15: the word is the encoder's, and the answer is read off the quotient. -/
theorem normalizeResult : Obligations.NormalizeResult := by
  intro s raw mask shift bits hb
  have hword : cmdOfParts (0x06000000 ||| (shift.setWidth 32 <<< 8) ||| bits.setWidth 32) mask raw =
      encode (.normalize raw mask shift bits) :=
    cmdOfParts_eq_ofFields (normalize_control shift bits)
  refine ⟨hword ▸ decode_encode (decide_eq_true hb), exec_normalize_of_zero, fun t hne ht => ?_⟩
  have h1 : 1 ≤ bits.toNat := Nat.pos_of_ne_zero hne
  refine ⟨exec_normalize_of_quotient_le h1 hb ht,
    fun h => ⟨_, exec_normalize_of_lt_quotient h1 hb ht h, fun hp => ?_⟩⟩
  rw [hp, normOvfOf_truncate_toNat]

/-- Settles O16: NORM_OVF is given nothing but the quotient. -/
theorem normalizeOverflowByQuotientOnly : Obligations.NormalizeOverflowByQuotientOnly := by
  intro s u raw mask raw' mask' shift shift' bits bits' t hsu h1 h32 h1' h32' ht ht' h
  refine ⟨?_, normOvfOf u.normOvf (BitVec.ofNat 40 t), ?_, exec_normalize_of_lt_quotient h1' h32' ht' h⟩
  · rw [ht, ← rescale_extractChannel]
    exact rescale_lt _ _
  · rw [exec_normalize_of_lt_quotient h1 h32 ht h, hsu]

/-- Settles O19: the scale and full scale of 8 bits cancel. -/
theorem normalizeEightBitsIdentity : Obligations.NormalizeEightBitsIdentity := by
  intro s raw mask shift hv
  have hcancel : (raw &&& mask).toNat / 2 ^ shift.toNat =
      (raw &&& mask).toNat / 2 ^ shift.toNat * 255 / (2 ^ (8 : BitVec 6).toNat - 1) :=
    (Nat.mul_div_cancel _ (show 0 < 255 by decide)).symm
  rw [exec_normalize_of_quotient_le (by decide) (by decide) hcancel hv, ← Nat.shiftRight_eq_div_pow,
    ← BitVec.toNat_ushiftRight, BitVec.ofNat_toNat, BitVec.setWidth_eq]

end Sys2Proof.Machine

/-! NORMALIZE under a contiguous mask: the field of the raw word, rescaled to 0 to 255 (R95). -/

namespace Sys2Proof.Machine

variable {w k d v v' : Nat}

/-- A contiguous mask with its own shift extracts the field of the raw word (R95). -/
theorem contiguousMask_field (hk : k + w ≤ 32) (raw : Word) :
    (raw &&& contiguousMask w k).toNat / 2 ^ k = raw.toNat / 2 ^ k % 2 ^ w := by
  rw [BitVec.toNat_and, contiguousMask_toNat hk, ← Nat.shiftRight_eq_div_pow, Nat.shiftRight_and_distrib,
    Nat.shiftRight_eq_div_pow, Nat.shiftRight_eq_div_pow, Nat.mul_div_cancel _ (Nat.two_pow_pos k),
    Nat.and_two_pow_sub_one_eq_mod]

/-- The result of R95 for the field `v` of full scale `d`. -/
def fieldScaled (d v : Nat) : Nat := 255 * v / d

theorem fieldScaled_mono (h : v ≤ v') : fieldScaled d v ≤ fieldScaled d v' :=
  Nat.div_le_div_right (Nat.mul_le_mul_left 255 h)

theorem fieldScaled_le (h : v ≤ d) : fieldScaled d v ≤ 255 :=
  Nat.div_le_of_le_mul (by omega)

theorem fieldScaled_eq_255_iff (hd : 0 < d) (h : v ≤ d) : fieldScaled d v = 255 ↔ v = d := by
  rw [← (fieldScaled_le h).ge_iff_eq, fieldScaled, Nat.le_div_iff_mul_le hd]
  omega

theorem fieldScaled_eq_zero_iff (hd : 0 < d) : fieldScaled d v = 0 ↔ 255 * v < d := by
  rw [fieldScaled, Nat.div_eq_zero_iff]
  omega

/-- NORMALIZE under a contiguous mask with its own shift and width: the quotient is always in range (R95). -/
theorem exec_normalize_contiguousMask (hw : 1 ≤ w) (hk : k + w ≤ 32) (raw : Word) (s : State) :
    exec (.normalize raw (contiguousMask w k) (BitVec.ofNat 5 k) (BitVec.ofNat 6 w)) s =
      .next { s with
        rsp := some ⟨false, 0, BitVec.ofNat 32 (fieldScaled (2 ^ w - 1) (raw.toNat / 2 ^ k % 2 ^ w))⟩ } := by
  have hshift : (BitVec.ofNat 5 k).toNat = k := by
    rw [BitVec.toNat_ofNat]
    omega
  have hbits : (BitVec.ofNat 6 w).toNat = w := by
    rw [BitVec.toNat_ofNat]
    omega
  have hv : raw.toNat / 2 ^ k % 2 ^ w ≤ 2 ^ w - 1 := Nat.le_sub_one_of_lt (Nat.mod_lt _ (Nat.two_pow_pos w))
  refine exec_normalize_of_quotient_le (by omega) (by omega) ?_ (fieldScaled_le hv)
  rw [hshift, hbits, contiguousMask_field hk, fieldScaled, Nat.mul_comm]

/-- Settles O18: SHIFTOF and BITWIDTHOF give the mask's shift and width back, and NORMALIZE is `fieldScaled`. -/
theorem normalizeContiguousMask : Obligations.NormalizeContiguousMask := by
  intro s w k hw hk
  have hd : 0 < 2 ^ w - 1 := Nat.sub_pos_of_lt (Nat.one_lt_two_pow (by omega))
  refine ⟨exec_shiftof_contiguousMask hw hk s, exec_bitwidthof_contiguousMask hk s, fieldScaled (2 ^ w - 1),
    fun raw => exec_normalize_contiguousMask hw hk raw s, fun v hv => ?_, fun v v' h _ => fieldScaled_mono h⟩
  have hzero := fieldScaled_eq_zero_iff (v := v) hd
  refine ⟨rfl, fieldScaled_le hv, fieldScaled_eq_255_iff hd hv, hzero, fun h8 => ?_⟩
  have hscale : 2 ^ w ≤ 2 ^ 8 := Nat.pow_le_pow_right Nat.two_pos h8
  rw [hzero]
  omega

end Sys2Proof.Machine

/-! The move of the host that a step performs, and the cursor move among them (R51, R113). -/

namespace Sys2Proof.Machine

variable {s : State} {p : Nat}

theorem step_eq_perform {e : HostEvent} {rest : List HostEvent} (h : s.inputs = e :: rest) :
    step s = perform e (s.setInputs rest) := by
  rw [step, h]

theorem hostMove_of_le (hp : p ≤ s.len) : hostMove p s = .next (s.placePos p) := if_pos hp

theorem hostMove_of_lt (hp : s.len < p) : hostMove p s = .refused .posOutsideSource := if_neg (Nat.not_le.2 hp)

/-- Settles O33: the step performs the cursor move, by the two cases of `hostMove`. -/
theorem hostMovesCursorOnly : Obligations.HostMovesCursorOnly := by
  intro s p rest h
  have hstep : step s = hostMove p (s.setInputs rest) := step_eq_perform h
  rw [hstep]
  exact ⟨hostMove_of_le (s := s.setInputs rest), hostMove_of_lt (s := s.setInputs rest)⟩

end Sys2Proof.Machine

/-! What SHIFTOF and BITWIDTHOF answer for the default masks (R115). -/

namespace Sys2Proof.Machine

/-- A mask of one whole byte, eight ones above `k` zeros: the answers are `k` and 8 (R95 item 1, R115). -/
theorem exec_codec_of_byteMask {mask : Word} {k : Nat} (hmask : mask = contiguousMask 8 k) (hk : k ≤ 24) (s : State) :
    exec (.shiftof mask) s = .next { s with rsp := some ⟨false, 0, BitVec.ofNat 32 k⟩ } ∧
    exec (.bitwidthof mask) s = .next { s with rsp := some ⟨false, 0, 8⟩ } := by
  subst hmask
  exact ⟨exec_shiftof_contiguousMask (by decide) (by omega) s, exec_bitwidthof_contiguousMask (by omega) s⟩

/-- An absent channel, mask 0: both answers are 0 (R91, R92, R115). -/
theorem exec_codec_of_zeroMask {mask : Word} (hmask : mask = 0) (s : State) :
    exec (.shiftof mask) s = .next { s with rsp := some ⟨false, 0, 0⟩ } ∧
    exec (.bitwidthof mask) s = .next { s with rsp := some ⟨false, 0, 0⟩ } := by
  have hcontiguous : (0 : Word) = contiguousMask 0 0 := by decide
  have hshift : shiftOf 0 = 0 := if_pos rfl
  have hwidth : bitWidthOf 0 = 0 := hcontiguous ▸ bitWidthOf_contiguousMask (by decide)
  rw [hmask, exec_shiftof, exec_bitwidthof, hshift, hwidth]
  exact ⟨rfl, rfl⟩

theorem defaultMask_alpha_of_depth_32 : defaultMask 32 .alpha = 0xFF000000 := rfl

theorem defaultMask_alpha_of_depth_ne {bitDepth : Nat} (h : bitDepth ≠ 32) : defaultMask bitDepth .alpha = 0 :=
  if_neg h

/-- Settles O42: each mask present is one whole byte, at bits 0, 8, 16 and 24, and an absent alpha is mask 0. -/
theorem defaultMasksShiftAndWidth : Obligations.DefaultMasksShiftAndWidth := by
  intro s bitDepth
  refine ⟨?colours, ?alpha, ?noAlpha⟩
  case colours =>
    have hblue : defaultMask bitDepth .blue = contiguousMask 8 0 := rfl
    have hgreen : defaultMask bitDepth .green = contiguousMask 8 8 := rfl
    have hred : defaultMask bitDepth .red = contiguousMask 8 16 := rfl
    obtain ⟨blueShift, blueWidth⟩ := exec_codec_of_byteMask hblue (by decide) s
    obtain ⟨greenShift, greenWidth⟩ := exec_codec_of_byteMask hgreen (by decide) s
    obtain ⟨redShift, redWidth⟩ := exec_codec_of_byteMask hred (by decide) s
    exact ⟨rfl, rfl, rfl, blueShift, greenShift, redShift, blueWidth, greenWidth, redWidth⟩
  case alpha =>
    rintro rfl
    have hbyte : defaultMask 32 .alpha = contiguousMask 8 24 := defaultMask_alpha_of_depth_32
    exact ⟨defaultMask_alpha_of_depth_32, exec_codec_of_byteMask hbyte (by decide) s⟩
  case noAlpha =>
    intro h
    exact ⟨defaultMask_alpha_of_depth_ne h, exec_codec_of_zeroMask (defaultMask_alpha_of_depth_ne h) s⟩

end Sys2Proof.Machine

/-! After a fault (R126 to R128): the checks on a command word, the gate of the reader commands, and what clears it. -/

namespace Sys2Proof.Machine

variable {s t : State} {i : Instr}

/-- With a fault recorded, a command answers alone or is illegal: FAULT and FCAUSE stay (R127, R128, R129). -/
theorem CommandShape.fault_kept (h : CommandShape s t) (hf : s.fault = true) : t.fault = true ∧ t.fcause = s.fcause := by
  cases h with
  | answered r ht => exact ht ▸ ⟨hf, rfl⟩
  | illegal ht => exact ht ▸ ⟨rfl, by simp [hf]⟩
  | emptied hnf | took _ hnf | exhausted _ hnf => simp [hf] at hnf

/-- A command or a cursor move, the moves that are no reset, keeps a recorded fault (R128, R147). -/
theorem MoveShape.fault_kept {e : HostEvent} (h : MoveShape s e t) (he : e.isReset = false) (hf : s.fault = true) :
    t.fault = true ∧ t.fcause = s.fcause := by
  cases h with
  | command h | commandStalled h => exact h.fault_kept hf
  | movePos => exact ⟨hf, rfl⟩
  | rst | rstDuring | startSession => simp [HostEvent.isReset] at he

/-- A refused reader command is refused again with no change: the gate reads what a refusal keeps (R127, R128). -/
theorem exec_reader_refused_again (hi : isReader i = true) (hf : s.fault = true) :
    exec i (s.answer (.error s.fcause)) = .next (s.answer (.error s.fcause)) :=
  exec_reader_of_fault (s := s.answer (.error s.fcause)) hi hf

/-- Settles O12: the gate for a reader command, and the one answer of a codec command with and without the fault. -/
theorem faultGateStopsReaderOnly : Obligations.FaultGateStopsReaderOnly := by
  intro s i hf hw
  refine ⟨fun hi => exec_reader_of_fault hi hf, fun hi => ?_⟩
  obtain ⟨d, hd⟩ := exec_codec_answer hi hw s.normOvf
  exact ⟨d, hd s rfl, hd { s with fault := false, fcause := 0 } rfl⟩

/-- Settles O23: by the host's move, by what `rst` writes, and by the gate applied twice. -/
theorem faultClearedOnlyByReset : Obligations.FaultClearedOnlyByReset := by
  refine ⟨fun s t hstep hf hmove => ?move, fun s rest hin => ?reset, fun s i hf hi => ?refusal⟩
  case move =>
    obtain rfl | ⟨e, rest, he, h⟩ := step_eq_next hstep
    · exact ⟨hf, rfl⟩
    · exact h.fault_kept (hmove e rest he) hf
  case reset => exact ⟨(s.setInputs rest).blockReset, step_eq_perform hin, rfl, rfl, rfl, rfl⟩
  case refusal => exact ⟨_, exec_reader_of_fault hi hf, rfl, exec_reader_refused_again hi hf⟩

/-- Settles O6: the decoder's verdict first, then the gate, then the command's meaning. -/
theorem checksMadeInOrder : Obligations.ChecksMadeInOrder := by
  intro s cw rest hin
  rw [step_command hin]
  refine ⟨fun why hd => ?illegal, fun i hd hi hf => ?refused, fun i hd _ => ?own⟩
  case illegal =>
    have hcause : s.fault = true → (takeFault .illegalCommand (s.setInputs rest)).fcause = s.fcause :=
      fun hf => if_pos hf
    exact ⟨_, runCommand_of_illegal hd _, rfl, rfl, hcause, rfl, rfl, rfl, rfl⟩
  case refused =>
    rw [runCommand_of_legal hd]
    exact exec_reader_of_fault (s := s.setInputs rest) hi hf
  case own => exact runCommand_of_legal hd _

end Sys2Proof.Machine

/-! A cursor move under a part-used buffer (spec/70_reset_and_hazards.md R147): the bits held do not notice it. -/

namespace Sys2Proof.Machine

variable {s : State}

/-- A bit held in the buffer is pending wherever the cursor stands (R70). -/
theorem State.pendingBit_placePos {i : Nat} (hi : i < s.cnt) (p : Nat) :
    (s.placePos p).pendingBit i = s.pendingBit i := by
  rw [State.pendingBit, State.pendingBit, State.placePos_cnt, if_pos hi, if_pos hi, State.placePos_buf]

theorem State.pendingValue_placePos {n : Nat} (hn : n ≤ s.cnt) (p : Nat) :
    (s.placePos p).pendingValue n = s.pendingValue n := by
  induction n with
  | zero => rfl
  | succ n ih => rw [State.pendingValue, State.pendingValue, ih (by omega), State.pendingBit_placePos hn]

/-- READBITS with all its bits in the buffer: no byte is pulled (R36, R72). -/
theorem exec_readbits_of_buffered {count : Word} (hf : s.fault = false) (hn : bitCount count ≤ s.cnt) :
    exec (.readbits count) s = .next { s with
      cnt := s.cnt - bitCount count
      rsp := some (.ok (BitVec.ofNat 32 (s.pendingValue (bitCount count)))) } := by
  have hp : s.pulls (bitCount count) = 0 := State.pulls_eq_zero_iff.2 hn
  rw [exec_takesBits_of_enough (.inr ⟨count, rfl⟩) hf (Nat.le_add_right_of_le hn), bitsTaken]
  congr 1
  apply State.eq_of_fields <;> simp [hp]

/-- Settles O34: the buffer's bits have one value at both cursors, and an empty buffer pulls the byte at the new one. -/
theorem moveUnderPartUsedBuffer : Obligations.MoveUnderPartUsedBuffer := by
  refine ⟨fun s p count hf hn => ?held, fun s p hf hc hp => ?exhausted⟩
  case held =>
    have hmoved := exec_readbits_of_buffered (s := s.placePos p) hf hn
    rw [State.pendingValue_placePos hn] at hmoved
    exact ⟨_, exec_readbits_of_buffered hf hn, hmoved⟩
  case exhausted => exact exec_readbit_of_fresh (s := s.placePos p) hf hc hp

end Sys2Proof.Machine

/-! The start of a session (spec/70_reset_and_hazards.md R143): what the attached source holds at every offset. -/

namespace Sys2Proof.Machine

variable {s : State} {bytes : List Byte} {p : Nat}

theorem Memory.read_of_unlisted {m : Memory} {a : Nat} (h : ∀ c ∈ m, c.1 ≠ a) : m.read a = 0 := by
  induction m with
  | nil => rfl
  | cons c rest ih =>
    obtain ⟨hc, hrest⟩ := List.forall_mem_cons.1 h
    rw [Memory.read, if_neg hc, ih hrest]

/-- An attached source at any offset: its bytes, and 0x00 beyond them (log entry 2). -/
theorem Memory.read_attached (bytes : List Byte) (a : Nat) :
    (Memory.ofBytes 0 bytes).read a = bytes.getD a 0 := by
  rcases Nat.lt_or_ge a bytes.length with ha | ha
  · simpa using Memory.read_ofBytes bytes 0 a ha
  · have hunlisted : ∀ c ∈ Memory.ofBytes 0 bytes, c.1 ≠ a := fun c hc => by
      have := Memory.ofBytes_inside bytes 0 c hc
      omega
    rw [Memory.read_of_unlisted hunlisted, List.getD_eq_default _ _ ha]

theorem startSession_of_lt (hl : bytes.length < Config.sourceLimit) (p : Nat) (s : State) :
    startSession bytes p s = hostMove p (s.attach bytes).blockReset := if_neg (Nat.not_le.2 hl)

theorem startSession_of_le (hl : Config.sourceLimit ≤ bytes.length) (p : Nat) (s : State) :
    startSession bytes p s = .refused .sourceTooLong := if_pos hl

/-- Settles O36: the step attaches, resets and moves the cursor, or refuses by the length or by the cursor. -/
theorem startSessionAttachesSource : Obligations.StartSessionAttachesSource := by
  intro s bytes p rest hin
  have hstep : step s = startSession bytes p (s.setInputs rest) := step_eq_perform hin
  rw [hstep]
  refine ⟨fun hl hp => ?attached, fun hl hp => ?outside, fun hl => startSession_of_le hl p _⟩
  case attached =>
    rw [startSession_of_lt hl, hostMove_of_le hp]
    exact ⟨_, rfl, rfl, Memory.read_attached bytes, Memory.wf_ofBytes bytes, rfl, rfl, rfl, rfl, rfl, rfl, rfl, rfl⟩
  case outside => rw [startSession_of_lt hl, hostMove_of_lt hp]

end Sys2Proof.Machine

/-! Reset, between two commands and during one (spec/70_reset_and_hazards.md R140, R142). -/

namespace Sys2Proof.Machine

variable {s u : State} {cw : CmdWord}

/-- Presenting a word instead of what the host would present next runs its command. -/
theorem step_presenting_command (cw : CmdWord) (s : State) (rest : List HostEvent) :
    step { s with inputs := .command cw :: rest } = runCommand cw (s.setInputs rest) :=
  step_command (s := s.setInputs (.command cw :: rest)) rfl

theorem runAborted_of_runCommand (h : runCommand cw s = .next u) (answered : Nat) :
    runAborted cw answered s = .next (s.placePos (min (s.pos + answered) u.pos)).blockReset := by
  rw [runAborted, h]

/-- Settles O37: the move is `State.blockReset`, which writes the block's fields and the response only. -/
theorem rstResetsBlockOnly : Obligations.RstResetsBlockOnly := by
  intro s rest hin
  rw [step_eq_perform hin]
  rfl

/-- Settles O38: the whole command moves the cursor forward and inside the source, and the reset undoes none of it. -/
theorem rstDuringCommand : Obligations.RstDuringCommand := by
  intro s cw answered rest hin
  obtain ⟨u, hu, hshape⟩ := runCommand_shape cw (s.setInputs rest)
  obtain ⟨hforward, -, hinside⟩ := hshape.pos_forward
  refine ⟨u, (step_presenting_command cw s rest).trans hu, hforward, hinside, ?_⟩
  rw [step_eq_perform hin, perform, runAborted_of_runCommand hu]
  rfl

end Sys2Proof.Machine

/-! The byte requests of a command, and the source that stops answering (R36, R64, R152, U14). -/

namespace Sys2Proof.Machine

variable {s t : State} {i : Instr} {cw : CmdWord} {answered : Nat}

theorem step_commandStalled {rest : List HostEvent} (h : s.inputs = .commandStalled cw answered :: rest) :
    step s = runStalled cw answered (s.setInputs rest) := step_eq_perform h

/-- A command that needs no more requests than are answered does what it always does (U14). -/
theorem runStalled_of_answered (h : runCommand cw s = .next t) (hr : requests s t ≤ answered) :
    runStalled cw answered s = runCommand cw s := by
  simp only [runStalled, h, if_pos hr]

/-- A command that needs one request more never completes (U14). -/
theorem runStalled_of_unanswered (h : runCommand cw s = .next t) (hr : answered < requests s t) :
    runStalled cw answered s = .fault .sourceNeverAnswers := by
  simp only [runStalled, h, if_neg (Nat.not_le.2 hr)]

/-- READBIT and READBITS request each byte they pull, or every byte left and the end of data (R36, R64). -/
theorem requests_of_takesBits (hi : i = .readbit ∨ ∃ count, i = .readbits count) (hf : s.fault = false) :
    ∃ t, exec i s = .next t ∧ requests s t =
      if s.bitsLeft < bitsTaken i then (s.len - s.pos) + 1 else s.pulls (bitsTaken i) := by
  rcases lt_or_ge s.bitsLeft (bitsTaken i) with hn | hn
  · exact ⟨_, exec_takesBits_of_exhausted hi hf hn, by rw [if_pos hn, requests_exhausted hf]⟩
  · exact ⟨_, exec_takesBits_of_enough hi hf hn, by rw [if_neg (Nat.not_lt.2 hn), requests_took]⟩

/-- A codec command, RESETBITBUF and a refused reader command request no byte (R73, R74, R90). -/
theorem requests_of_silent (hw : i.wf = true) (hi : isReader i = false ∨ i = .resetbitbuf ∨ s.fault = true) :
    ∃ t, exec i s = .next t ∧ requests s t = 0 := by
  cases hreader : isReader i with
  | false =>
    obtain ⟨d, hd⟩ := exec_codec_answer hreader hw s.normOvf
    exact ⟨_, hd s rfl, requests_answered s _⟩
  | true =>
    cases hf : s.fault with
    | true => exact ⟨_, exec_reader_of_fault hreader hf, requests_answered s _⟩
    | false =>
      obtain rfl : i = .resetbitbuf := by simpa [hreader, hf] using hi
      exact ⟨_, exec_resetbitbuf_of_no_fault hf, requests_emptied s _⟩

/-- No command makes more than four requests: 32 bits are four bytes (R36). -/
theorem CommandShape.requests_le_four (h : CommandShape s t) : requests s t ≤ 4 := by
  cases h with
  | answered r ht => simp [ht, requests_answered]
  | emptied hf ht => simp [ht, requests_emptied]
  | illegal ht => simp [ht, requests_illegal]
  | took n hf h1 h32 hn ht =>
    rw [ht, requests_took]
    exact State.pulls_le_four h32
  | exhausted n hf h32 hn ht =>
    have hleft := State.len_lt_of_bitsLeft_lt hn h32
    rw [ht, requests_exhausted hf]
    omega

/-- Settles O39, each clause by the count of requests its command makes. -/
theorem sourceThatNeverAnswers : Obligations.SourceThatNeverAnswers := by
  refine ⟨fun s cw answered needed rest i hin hd hi hf hneeded => ?takesBits,
    fun s cw answered rest i hin hd hi => ?silent, fun s cw answered rest why hin hd => ?illegal,
    fun s cw answered rest hin h4 => ?four⟩
  case takesBits =>
    obtain ⟨t, ht, hr⟩ := requests_of_takesBits (s := s.setInputs rest) hi hf
    have hcount : requests (s.setInputs rest) t = needed := hr.trans hneeded.symm
    rw [← runCommand_of_legal hd] at ht
    rw [step_commandStalled hin, ← hcount]
    exact ⟨runStalled_of_unanswered ht, fun h => (runStalled_of_answered ht h).trans (runCommand_of_legal hd _)⟩
  case silent =>
    obtain ⟨t, ht, hr⟩ := requests_of_silent (s := s.setInputs rest) (wf_of_decode hd) hi
    rw [← runCommand_of_legal hd] at ht
    rw [step_commandStalled hin, runStalled_of_answered ht (hr.trans_le (Nat.zero_le _))]
    exact runCommand_of_legal hd _
  case illegal =>
    rw [step_commandStalled hin, step_presenting_command,
      runStalled_of_answered (runCommand_of_illegal hd _) ((requests_illegal _).trans_le (Nat.zero_le _))]
  case four =>
    obtain ⟨t, ht, hshape⟩ := runCommand_shape cw (s.setInputs rest)
    rw [step_commandStalled hin, step_presenting_command,
      runStalled_of_answered ht (hshape.requests_le_four.trans h4)]

end Sys2Proof.Machine
